-- ==== Sys2Proof/Word.lean ====
section
/-! DEFINITION. The three word types of the block: the 32-bit values `R`, `F`, seed and feedback
constant, the byte of a sequence, and the 36-bit command word (00_scope.md R4, R6; 30_encoding.md R47). -/

namespace Sys2Proof

/-- A 32-bit unsigned value: the width `W` of R4. -/
abbrev Word := BitVec 32

/-- One 8-bit beat of a sequence, one cell of the store (R4, R30). -/
abbrev Byte := BitVec 8

/-- A command word: `op` in bits 35 to 32, `arg` in bits 31 to 0 (R47). -/
abbrev CmdWord := BitVec 36

end Sys2Proof
end

