-- ==== Sys2Proof/Config.lean ====
section
/-! DEFINITION. The parameters of 00_scope.md R4. The ones R4 marks *fixed* are the widths of
Word.lean and `stepsPerByte`; the ones it marks *argument* are the fields of `Params`, which the
step function takes, with R4's defaults in `Config.params`. No result of any command is an undefined
value, so there is no free value here (log 19). -/

namespace Sys2Proof

/-- The parameters R4 marks *argument*. `none` is R4's "unbounded". -/
structure Params where
  /-- `DEFAULT_FEEDBACK`: what reset puts into `F`. -/
  defaultFeedback : Word
  /-- `DEFAULT_SEED`: what reset puts into `R`. -/
  defaultSeed : Word
  /-- `STORE_DEPTH`: how many byte pairs the session store can hold. -/
  storeDepth : Option Nat
  /-- `LEN_BITS`: the width of a sequence length. -/
  lenBits : Option Nat
  deriving DecidableEq, Repr

/-- R4's defaults. UNVERIFIED (log 4): the two constants are the source's unaudited literals
(92_eei_decisions.md D30); the two bounds are D10. -/
def Config.params : Params where
  defaultFeedback := 0x7fe00ae3#32
  defaultSeed := 0x478e29a4#32
  storeDepth := none
  lenBits := none

/-- `STEPS_PER_BYTE` of R4, fixed. -/
def Config.stepsPerByte : Nat := 8

end Sys2Proof
end

