-- ==== Sys2Proof/Syntax.lean ====
section
/-! DEFINITION. The commands of the block, one constructor per row of spec/opcode_table.json, each
with only the operands that 30_encoding.md R49 gives it (R52), and the command as it stands on the
ports (R45 to R47). -/

namespace Sys2Proof

/-- A command with its operands (R49, R54). Sequence operands are whole finite lists (R46). -/
inductive Instr where
  /-- `LDF f` (40_generator.md R67). -/
  | ldf (f : Word)
  /-- `SEED s` (R66). -/
  | seed (s : Word)
  /-- `STEP` (R62). -/
  | step
  /-- `KSB` (R65). -/
  | ksb
  /-- `ENC s, p` (41_cipher_driver.md R80): seed and plaintext. -/
  | enc (s : Word) (p : List Byte)
  /-- `DECS s, c` (R81): seed and ciphertext. -/
  | decs (s : Word) (c : List Byte)
  /-- `DECK c, k` (R82): ciphertext and keystream. -/
  | deck (c k : List Byte)
  /-- `DECR` (R83). -/
  | decr
  /-- Opcode `0x0`, reserved (30_encoding.md R51). -/
  | reserved0
  /-- Opcode `0x9`, reserved. -/
  | reserved9
  /-- Opcode `0xA`, reserved. -/
  | reservedA
  /-- Opcode `0xB`, reserved. -/
  | reservedB
  /-- Opcode `0xC`, reserved. -/
  | reservedC
  /-- Opcode `0xD`, reserved. -/
  | reservedD
  /-- Opcode `0xE`, reserved. -/
  | reservedE
  /-- Opcode `0xF`, reserved. -/
  | reservedF
  deriving DecidableEq, Repr

/-- What the host puts on the ports for one command (R45, R46): the command word on `cmd` and the
two operand sequences on `din` and `kin`, sampled or not. -/
structure Command where
  cmd : CmdWord
  din : List Byte
  kin : List Byte
  deriving DecidableEq, Repr

end Sys2Proof
end

