-- ==== Sys2Proof/WellFormed.lean ====
section
/-! DEFINITION. Which commands a block built for given parameters gives a meaning to. With the default
parameters of 00_scope.md R4 every command is well formed. A finite `STORE_DEPTH` refuses a longer
`ENC` (20_memory.md R32); a finite `LEN_BITS` leaves a longer sequence without a length (log 5). -/

namespace Sys2Proof

/-- Why a command has no meaning under the parameters. -/
inductive IllFormed where
  /-- An operand sequence whose length is no `LEN_BITS`-bit number (R4, R15). DEDUCED (log 5). -/
  | lengthTooWide
  /-- An `ENC` of more bytes than `STORE_DEPTH` pairs (R32). -/
  | storeTooSmall
  deriving DecidableEq, Repr

/-- A length that `LEN_BITS` bits can hold (R4). -/
def Params.lengthFits (c : Params) (n : Nat) : Bool :=
  match c.lenBits with
  | none => true
  | some w => decide (n < 2 ^ w)

/-- A length that `STORE_DEPTH` byte pairs can hold (R4, R32). -/
def Params.depthFits (c : Params) (n : Nat) : Bool :=
  match c.storeDepth with
  | none => true
  | some d => decide (n ≤ d)

/-- The first check a command fails under the parameters, if any. -/
def Instr.illFormed (c : Params) : Instr → Option IllFormed
  | .enc _ p =>
    if c.lengthFits p.length then
      if c.depthFits p.length then none else some .storeTooSmall
    else some .lengthTooWide
  | .decs _ x => if c.lengthFits x.length then none else some .lengthTooWide
  | .deck x k =>
    if c.lengthFits x.length && c.lengthFits k.length then none else some .lengthTooWide
  | .ldf _ | .seed _ | .step | .ksb | .decr => none
  | .reserved0 | .reserved9 | .reservedA | .reservedB => none
  | .reservedC | .reservedD | .reservedE | .reservedF => none

/-- The block built for these parameters gives the command a meaning. -/
def Instr.wellFormed (c : Params) (i : Instr) : Bool := (i.illFormed c).isNone

end Sys2Proof
end

