-- ==== Sys2Proof/Decode.lean ====
section
/-! DEFINITION. The decoder of 30_encoding.md R54, total on all `2^36` command words, written from the
`op` column of R49; after it the encoder, written from the `match` column of R49 and
spec/opcode_table.json; and the numbers the opcode table uses for a command word. -/

namespace Sys2Proof

/-- `op = cmd[35:32]` (R47). -/
def opField (w : CmdWord) : BitVec 4 := w.extractLsb' 32 4

/-- `arg = cmd[31:0]`, used as it stands (R47, R50). -/
def argField (w : CmdWord) : Word := w.extractLsb' 0 32

/-- The command an opcode selects (R49, R54); `a`, `din`, `kin` are taken only where R49 says so.
The last line is opcode `0xF`, the only 4-bit value left. -/
def decodeOp (op : BitVec 4) (a : Word) (din kin : List Byte) : Instr :=
  match op.toNat with
  | 0x0 => .reserved0
  | 0x1 => .ldf a
  | 0x2 => .seed a
  | 0x3 => .step
  | 0x4 => .ksb
  | 0x5 => .enc a din
  | 0x6 => .decs a din
  | 0x7 => .deck din kin
  | 0x8 => .decr
  | 0x9 => .reserved9
  | 0xA => .reservedA
  | 0xB => .reservedB
  | 0xC => .reservedC
  | 0xD => .reservedD
  | 0xE => .reservedE
  | _ => .reservedF

/-- The decoder (R54): a command of the ports read as a command with operands. Total: a reserved
opcode is named by its own constructor and never read as a neighbour (R51). -/
def decode (c : Command) : Instr :=
  decodeOp (opField c.cmd) (argField c.cmd) c.din c.kin

/-- Why a number is no command word. -/
inductive DecodeReject where
  /-- The number needs more than the 36 bits of the one format (R47, R53). -/
  | tooWide (w : Nat)
  deriving DecidableEq, Repr

/-- A number read as a command word; one of more than 36 bits is none (R47, R53; log 15). -/
def readCmdWord (w : Nat) : Except DecodeReject CmdWord :=
  if w < 2 ^ 36 then .ok (BitVec.ofNat 36 w) else .error (.tooWide w)

/-- The opcode table's number of `nbits` bits as a command word: the bits above `nbits` are 0. -/
def tableCmdWord (nbits w : Nat) : Except DecodeReject CmdWord :=
  readCmdWord (w % 2 ^ nbits)

/-- The instruction the decoder reads from an opcode-table word, with no beats on `din` and `kin`
(the table gives the sequences no bits; log 15). -/
def decodeTableWord (nbits w : Nat) : Option Instr :=
  match tableCmdWord nbits w with
  | .ok cw => some (decode ⟨cw, [], []⟩)
  | .error _ => none

/-! The encoder. -/

/-- The `match` value of the command's row (R49, mask `0xF00000000`). -/
def Instr.matchWord : Instr → CmdWord
  | .ldf _ => 0x100000000#36
  | .seed _ => 0x200000000#36
  | .step => 0x300000000#36
  | .ksb => 0x400000000#36
  | .enc _ _ => 0x500000000#36
  | .decs _ _ => 0x600000000#36
  | .deck _ _ => 0x700000000#36
  | .decr => 0x800000000#36
  | .reserved0 => 0x000000000#36
  | .reserved9 => 0x900000000#36
  | .reservedA => 0xA00000000#36
  | .reservedB => 0xB00000000#36
  | .reservedC => 0xC00000000#36
  | .reservedD => 0xD00000000#36
  | .reservedE => 0xE00000000#36
  | .reservedF => 0xF00000000#36

/-- The mask of every row of the opcode table (R49). -/
def opcodeMask : CmdWord := 0xF00000000#36

/-- The command's `arg`; 0 where `arg` is not used (R54's canonical words). -/
def Instr.arg : Instr → Word
  | .ldf f => f
  | .seed s => s
  | .enc s _ => s
  | .decs s _ => s
  | .step | .ksb | .deck _ _ | .decr => 0#32
  | .reserved0 | .reserved9 | .reservedA | .reservedB => 0#32
  | .reservedC | .reservedD | .reservedE | .reservedF => 0#32

/-- The command's first operand sequence; empty where `din` is not sampled (R52). -/
def Instr.din : Instr → List Byte
  | .enc _ p => p
  | .decs _ c => c
  | .deck c _ => c
  | .ldf _ | .seed _ | .step | .ksb | .decr => []
  | .reserved0 | .reserved9 | .reservedA | .reservedB => []
  | .reservedC | .reservedD | .reservedE | .reservedF => []

/-- The command's second operand sequence; only `DECK` samples `kin` (R52). -/
def Instr.kin : Instr → List Byte
  | .deck _ k => k
  | .ldf _ | .seed _ | .step | .ksb | .enc _ _ | .decs _ _ | .decr => []
  | .reserved0 | .reserved9 | .reservedA | .reservedB => []
  | .reservedC | .reservedD | .reservedE | .reservedF => []

/-- The canonical command of the ports for a command (R54). -/
def encode (i : Instr) : Command :=
  ⟨i.matchWord ||| i.arg.setWidth 36, i.din, i.kin⟩

/-- The opcodes whose commands use `arg` (R49, R52). -/
def usesArg (op : BitVec 4) : Bool := op == 1#4 || op == 2#4 || op == 5#4 || op == 6#4

/-- The opcodes whose commands sample `din` (R49, R52). -/
def samplesDin (op : BitVec 4) : Bool := op == 5#4 || op == 6#4 || op == 7#4

/-- The opcodes whose commands sample `kin` (R49, R52). -/
def samplesKin (op : BitVec 4) : Bool := op == 7#4

end Sys2Proof
end

