-- ==== Sys2Proof/Machine/State.lean ====
section
/-! DEFINITION. The state of one block instance (10_state.md R10, exactly six elements), the host's side
of its ports round it, the reasons a step can stop, and the state after reset (R23). -/

namespace Sys2Proof.Machine

/-- A space of the session store: cells of (index, byte), indices strictly rising (`Memory.wf`).
An index that is not listed is a cell that does not exist: it has no value (20_memory.md R30; log 12). -/
abbrev Memory := List Host.Cell

/-- The two address spaces of R30. -/
inductive Space where
  | ks
  | cb
  deriving DecidableEq, Repr

/-- The state of one block instance: the six elements of R10 and nothing else. -/
structure Block where
  /-- `R`, the shift register (R11). -/
  r : Word
  /-- `F`, the feedback constant (R12). -/
  f : Word
  /-- `KS`, the recorded keystream (R13). -/
  ks : Memory
  /-- `CB`, the recorded cipher bytes (R14). -/
  cb : Memory
  /-- `LEN`, the recorded length (R15). -/
  len : Nat
  /-- `VALID`, whether an `ENC` has recorded a session since reset (R16). -/
  valid : Bool
  deriving DecidableEq, Repr

/-- The error code of a response (30_encoding.md R48, 60_exceptions.md R100). -/
inductive Err where
  | ok
  | lengthMismatch
  | noKeystreamAvailable
  | illegalCommand
  deriving DecidableEq, Repr

/-- The response of a command: the triple `(err, dout, kout)` of R48. -/
structure Response where
  err : Err
  dout : List Byte
  kout : List Byte
  deriving DecidableEq, Repr

/-- What the outside can do to the block between commands: reset it (R120) or issue a command
(R45). -/
inductive Event where
  | reset
  | command (c : Command)
  deriving DecidableEq, Repr

/-- One instance with the host's side of its ports. `pending` and `responses` are the model's own
fields, DESIGN CHOICE (log 1): what the host will issue, oldest first, and what it has received,
oldest first. -/
structure State where
  block : Block
  pending : List Event
  responses : List Response
  deriving DecidableEq, Repr

/-- The faults of the model. -/
inductive Fault where
  /-- Raised by `DECR` when it reads a store cell that does not exist (R30, R31). It needs a state
  that R17 rules out. Safe: the machine stops where the spec describes no access. -/
  | storeCellAbsent (space : Space) (index : Nat)
  deriving DecidableEq, Repr

/-- The refusals of the model. -/
inductive Refusal where
  /-- Raised by `exec` for a command with no meaning yet. Safe. No arm raises it. -/
  | notModelled (mnemonic : String)
  /-- Raised by the step for a command that is not well formed under finite parameters (R32; log 5).
  Safe: R32 asks for the refusal. Never raised with the default parameters. -/
  | illFormed (why : IllFormed)
  deriving DecidableEq, Repr

/-- The six elements after reset (R23). -/
def Block.reset (c : Params) : Block where
  r := c.defaultSeed
  f := c.defaultFeedback
  ks := []
  cb := []
  len := 0
  valid := false

/-- An instance after reset, with nothing issued to it (R23, R120). -/
def State.resetWith (c : Params) : State where
  block := Block.reset c
  pending := []
  responses := []

/-- The machine right after reset, with the default parameters of R4. -/
def State.reset : State := State.resetWith Config.params

/-- The observation port `r_q`, valid between commands (R11, R46). -/
def State.rq (s : State) : Word := s.block.r

end Sys2Proof.Machine
end

