-- ==== Sys2Proof/Machine/Ops.lean ====
section
/-! DEFINITION. The named operations over the store, the registers, the response and the host's queue:
`MemRead`, `MemWrite` (20_memory.md R31), the loads of `R` and `F`, `raise` (60_exceptions.md R103),
and taking the next event. No command returns from an error, because nothing was entered (R105). -/

namespace Sys2Proof.Machine

/-! The store spaces. -/

/-- `MemRead(X, i, 1)` (R31); `none` for a cell that does not exist (R30). -/
def Memory.read : Memory → Nat → Option Byte
  | [], _ => none
  | (k, v) :: m, i => if i = k then some v else Memory.read m i

/-- `MemWrite(X, i, 1, v)` (R31): exactly one cell changes; the cells stay in rising order. -/
def Memory.write : Memory → Nat → Byte → Memory
  | [], i, v => [(i, v)]
  | (k, w) :: m, i, v =>
    if i < k then (i, v) :: (k, w) :: m
    else if i = k then (i, v) :: m
    else (k, w) :: Memory.write m i v

/-- The indices of the cells that exist. -/
def Memory.addresses (m : Memory) : List Nat := m.map Prod.fst

/-- The bytes of the cells that exist, in index order: the space as the sequence of R13, R14. -/
def Memory.bytes (m : Memory) : List Byte := m.map Prod.snd

/-- The canonical form: indices strictly rising. (No cell reads as an unlisted one does, since an
unlisted index has no value.) -/
abbrev Memory.wf (m : Memory) : Prop := (Memory.addresses m).Pairwise (· < ·)

/-- The cells of a byte sequence placed from index `i` on. -/
def Memory.ofBytesFrom : Nat → List Byte → Memory
  | _, [] => []
  | i, b :: bs => (i, b) :: Memory.ofBytesFrom (i + 1) bs

/-- The space that holds a byte sequence, element `i` at index `i` (R13, R14). -/
def Memory.ofBytes (bs : List Byte) : Memory := Memory.ofBytesFrom 0 bs

/-! The block's state elements. -/

/-- `R <- v` (R11): all 32 bits. -/
def Block.loadR (b : Block) (v : Word) : Block := { b with r := v }

/-- `F <- v` (R12): all 32 bits. -/
def Block.loadF (b : Block) (v : Word) : Block := { b with f := v }

/-- `LEN <- 0`, where `KS` and `CB` become empty (41_cipher_driver.md R80). -/
def Block.clearStore (b : Block) : Block := { b with ks := [], cb := [], len := 0 }

/-- One append to the store (R31, R86): both spaces at `i = LEN`, then `LEN` rises by one. -/
def Block.appendPair (b : Block) (k c : Byte) : Block :=
  { b with ks := Memory.write b.ks b.len k, cb := Memory.write b.cb b.len c, len := b.len + 1 }

/-! The response. -/

/-- The 2-bit `err` port (30_encoding.md R48). -/
def Err.code : Err → BitVec 2
  | .ok => 0#2
  | .lengthMismatch => 1#2
  | .noKeystreamAvailable => 2#2
  | .illegalCommand => 3#2

/-- A command ends: the block as it leaves it, and its response handed to the host (R45). -/
def State.finish (s : State) (b : Block) (resp : Response) : State :=
  { s with block := b, responses := s.responses ++ [resp] }

/-- `raise <Error>` (R103): the command stops, its response is `(<Error>, [], [])`, no state of the
block changes; nothing is saved and control goes nowhere. -/
def raise (e : Err) (s : State) : Host.Outcome State Fault Refusal :=
  .next (s.finish s.block ⟨e, [], []⟩)

/-! The host's queue. -/

/-- What the instance finds on its ports: nothing, a reset, or a command; with the state in which
the event has been taken off the queue. -/
inductive Arrival where
  | idle
  | reset (s : State)
  | command (c : Command) (s : State)
  deriving DecidableEq, Repr

/-- Takes the next event the host has queued (R45: one at a time, in issue order). -/
def State.take (s : State) : Arrival :=
  match s.pending with
  | [] => .idle
  | .reset :: rest => .reset { s with pending := rest }
  | .command c :: rest => .command c { s with pending := rest }

/-- The reset event (70_reset_and_hazards.md R120): every element takes its reset value, and there is
no response. -/
def State.takeReset (c : Params) (s : State) : State := { s with block := Block.reset c }

/-- The host issues a command before all it has queued. -/
def State.issueFirst (s : State) (c : Command) : State :=
  { s with pending := .command c :: s.pending }

end Sys2Proof.Machine
end

