-- ==== Sys2Proof/Machine/Flags.lean ====
section
/-! DEFINITION. The block's one flag, `VALID` (10_state.md R16, R18). No command computes a carry, zero,
sign or overflow flag, and none reads one. -/

namespace Sys2Proof.Machine

/-- `VALID <- 1`: every completed `ENC` does it, an `ENC` of the empty sequence too (R16).
UNVERIFIED for the empty sequence (log 9). -/
def Block.setValid (b : Block) : Block := { b with valid := true }

/-- The test of `DECR`: an `ENC` has completed since the last reset (R16). -/
def Block.hasRecord (b : Block) : Bool := b.valid

end Sys2Proof.Machine
end

