-- ==== Sys2Proof/Machine/Operands.lean ====
section
/-! DEFINITION. The operand forms of the driver and the generator: the byte cut from a 32-bit state,
the XOR of two sequences, the length test of `DECK`. The 32-bit operand `arg` is used as it stands
(30_encoding.md R50), so it needs no form of its own. -/

namespace Sys2Proof.Machine

/-- `t[7:0]`, a truncation by bit position (20_memory.md R33, 40_generator.md R64). -/
def lowByte (t : Word) : Byte := t.extractLsb' 0 8

/-- Two sequences XORed element by element, in index order (20_memory.md R43, 41_cipher_driver.md R84). -/
def xorBytes : List Byte → List Byte → List Byte
  | k :: ks, x :: xs => (k ^^^ x) :: xorBytes ks xs
  | _, _ => []

/-- The test of `DECK`: equality of two natural numbers (R82, R84). -/
def lengthsMatch (c k : List Byte) : Bool := k.length == c.length

/-- What `DECR` reads of the store (R83): `KS[i] xor CB[i]` for the `n` indices from `i` on, in index
order; the first cell that does not exist ends it. -/
def combineStored (ks cb : Memory) : Nat → Nat → Except Fault (List Byte)
  | 0, _ => .ok []
  | n + 1, i =>
    match Memory.read ks i with
    | none => .error (.storeCellAbsent .ks i)
    | some k =>
      match Memory.read cb i with
      | none => .error (.storeCellAbsent .cb i)
      | some c =>
        match combineStored ks cb n (i + 1) with
        | .error e => .error e
        | .ok out => .ok ((k ^^^ c) :: out)

end Sys2Proof.Machine
end

