-- ==== Sys2Proof/Machine/Generator.lean ====
section
/-! DEFINITION. The generator (40_generator.md): the pure functions `step`, `ksb`, `keystream`,
`final_state`, and the meanings of `STEP`, `KSB`, `SEED`, `LDF`. -/

namespace Sys2Proof.Machine

/-- `step(s, f)`, the source's `stepRegister` (R60): the logical right shift by one, then the feedback
multiplexer steered by the ejected bit (R61). The shift fills with zero; UNVERIFIED (log 7). -/
def stepRegister (s f : Word) : Word :=
  if s.getLsbD 0 then (s >>> 1) ^^^ f else s >>> 1

/-- `step` applied `n` times to `s` under `f`. -/
def stepTimes : Nat → Word → Word → Word
  | 0, s, _ => s
  | n + 1, s, f => stepTimes n (stepRegister s f) f

/-- `ksb(s, f)` (R64): the low byte after eight steps, and the state after them. -/
def ksb (s f : Word) : Byte × Word :=
  let t := stepTimes Config.stepsPerByte s f
  (lowByte t, t)

/-- `keystream(s, f, N)` (R68): the first `N` keystream bytes from seed `s` under constant `f`. -/
def keystream (s f : Word) : Nat → List Byte
  | 0 => []
  | n + 1 => (ksb s f).1 :: keystream (ksb s f).2 f n

/-- `final_state(s, f, N)` (R68): `step` applied `8*N` times. -/
def finalState (s f : Word) (n : Nat) : Word := stepTimes (Config.stepsPerByte * n) s f

/-- The state a step came from when `f[31] = 1` (R72(a)): old bit 0 is `x[31]`, old bits 31 to 1 are
`(x xor (f if x[31] = 1 else 0))[30:0]`. -/
def unstepRegister (x f : Word) : Word :=
  if x.getLsbD 31 then ((x ^^^ f) <<< 1) ||| 1#32 else x <<< 1

/-- One keystream byte derived in place: `(k, t) = ksb(R, F)`, `R <- t` (R65, R80, R81). -/
def Block.deriveByte (b : Block) : Byte × Block :=
  ((ksb b.r b.f).1, b.loadR (ksb b.r b.f).2)

/-- `LDF f` (R67). -/
def execLdf (f : Word) (s : State) : Host.Outcome State Fault Refusal :=
  .next (s.finish (s.block.loadF f) ⟨.ok, [], []⟩)

/-- `SEED s` (R66). -/
def execSeed (v : Word) (s : State) : Host.Outcome State Fault Refusal :=
  .next (s.finish (s.block.loadR v) ⟨.ok, [], []⟩)

/-- `STEP` (R62). -/
def execStep (s : State) : Host.Outcome State Fault Refusal :=
  .next (s.finish (s.block.loadR (stepRegister s.block.r s.block.f)) ⟨.ok, [], []⟩)

/-- `KSB` (R65): the byte goes to `kout`; the store is not touched. -/
def execKsb (s : State) : Host.Outcome State Fault Refusal :=
  .next (s.finish s.block.deriveByte.2 ⟨.ok, [], [s.block.deriveByte.1]⟩)

end Sys2Proof.Machine
end

