-- ==== Sys2Proof/Machine/Driver.lean ====
section
/-! DEFINITION. The cipher driver (41_cipher_driver.md): the byte loops and the meanings of `ENC`, `DECS`,
`DECK`, `DECR`. -/

namespace Sys2Proof.Machine

/-- What a byte loop leaves: the block, and the beats it emitted, in index order. -/
structure Pass where
  block : Block
  dout : List Byte
  kout : List Byte
  deriving DecidableEq, Repr

/-- The loop of `ENC` (R80) over the bytes of `p`: eight steps, the XOR, the append to the store, the
two beats, for each byte in index order. -/
def encLoop : List Byte → Block → Pass
  | [], b => ⟨b, [], []⟩
  | x :: xs, b =>
    let k := b.deriveByte.1
    let rest := encLoop xs (b.deriveByte.2.appendPair k (k ^^^ x))
    ⟨rest.block, (k ^^^ x) :: rest.dout, k :: rest.kout⟩

/-- The loop of `DECS` (R81): as `ENC`'s, without the record and without `kout`. -/
def decsLoop : List Byte → Block → Pass
  | [], b => ⟨b, [], []⟩
  | x :: xs, b =>
    let rest := decsLoop xs b.deriveByte.2
    ⟨rest.block, (b.deriveByte.1 ^^^ x) :: rest.dout, rest.kout⟩

/-- `ENC s, p` (R80). `R` keeps the last stepped value; UNVERIFIED (log 8). -/
def execEnc (v : Word) (p : List Byte) (s : State) : Host.Outcome State Fault Refusal :=
  let out := encLoop p (s.block.loadR v).clearStore
  .next (s.finish out.block.setValid ⟨.ok, out.dout, out.kout⟩)

/-- `DECS s, c` (R81): the store and `VALID` are neither read nor written. -/
def execDecs (v : Word) (c : List Byte) (s : State) : Host.Outcome State Fault Refusal :=
  let out := decsLoop c (s.block.loadR v)
  .next (s.finish out.block ⟨.ok, out.dout, out.kout⟩)

/-- `DECK c, k` (R82): the length test comes before any output; no state is read or written. -/
def execDeck (c k : List Byte) (s : State) : Host.Outcome State Fault Refusal :=
  if lengthsMatch c k then .next (s.finish s.block ⟨.ok, xorBytes k c, []⟩)
  else raise .lengthMismatch s

/-- `DECR` (R83): the test of `VALID` comes before any output; nothing is written, the record stays;
UNVERIFIED (log 10). -/
def execDecr (s : State) : Host.Outcome State Fault Refusal :=
  if s.block.hasRecord then
    match combineStored s.block.ks s.block.cb s.block.len 0 with
    | .ok out => .next (s.finish s.block ⟨.ok, out, []⟩)
    | .error e => .fault e
  else raise .noKeystreamAvailable s

end Sys2Proof.Machine
end

