-- ==== Sys2Proof/Machine/Reserved.lean ====
section
/-! DEFINITION. The reserved opcodes `0x0` and `0x9` to `0xF` (30_encoding.md R51, 60_exceptions.md R102):
each ends with the response `(IllegalCommand, [], [])` and changes no state. The spec lets a model refuse
them; this one takes the error (log 11). -/

namespace Sys2Proof.Machine

/-- Opcode `0x0` (R51, R102). -/
def execReserved0 (s : State) : Host.Outcome State Fault Refusal := raise .illegalCommand s

/-- Opcode `0x9` (R51, R102). -/
def execReserved9 (s : State) : Host.Outcome State Fault Refusal := raise .illegalCommand s

/-- Opcode `0xA` (R51, R102). -/
def execReservedA (s : State) : Host.Outcome State Fault Refusal := raise .illegalCommand s

/-- Opcode `0xB` (R51, R102). -/
def execReservedB (s : State) : Host.Outcome State Fault Refusal := raise .illegalCommand s

/-- Opcode `0xC` (R51, R102). -/
def execReservedC (s : State) : Host.Outcome State Fault Refusal := raise .illegalCommand s

/-- Opcode `0xD` (R51, R102). -/
def execReservedD (s : State) : Host.Outcome State Fault Refusal := raise .illegalCommand s

/-- Opcode `0xE` (R51, R102). -/
def execReservedE (s : State) : Host.Outcome State Fault Refusal := raise .illegalCommand s

/-- Opcode `0xF` (R51, R102). -/
def execReservedF (s : State) : Host.Outcome State Fault Refusal := raise .illegalCommand s

end Sys2Proof.Machine
end

