-- ==== Sys2Proof/Machine/Dispatch.lean ====
section
/-! DEFINITION. The meaning of every command: one arm per constructor of `Instr`, each one call. -/

namespace Sys2Proof.Machine

/-- `exec : State -> Cmd -> State x Resp` of 30_encoding.md R45; the response is the last element of
`responses`. -/
def exec (i : Instr) (s : State) : Host.Outcome State Fault Refusal :=
  match i with
  | .ldf f => Sys2Proof.Machine.execLdf f s
  | .seed v => Sys2Proof.Machine.execSeed v s
  | .step => Sys2Proof.Machine.execStep s
  | .ksb => Sys2Proof.Machine.execKsb s
  | .enc v p => Sys2Proof.Machine.execEnc v p s
  | .decs v c => Sys2Proof.Machine.execDecs v c s
  | .deck c k => Sys2Proof.Machine.execDeck c k s
  | .decr => Sys2Proof.Machine.execDecr s
  | .reserved0 => Sys2Proof.Machine.execReserved0 s
  | .reserved9 => Sys2Proof.Machine.execReserved9 s
  | .reservedA => Sys2Proof.Machine.execReservedA s
  | .reservedB => Sys2Proof.Machine.execReservedB s
  | .reservedC => Sys2Proof.Machine.execReservedC s
  | .reservedD => Sys2Proof.Machine.execReservedD s
  | .reservedE => Sys2Proof.Machine.execReservedE s
  | .reservedF => Sys2Proof.Machine.execReservedF s

end Sys2Proof.Machine
end

