-- ==== Sys2Proof/Machine/Step.lean ====
section
/-! DEFINITION. One step of an instance: the next event the host has queued, whole (30_encoding.md R45).
An instance with nothing queued holds its state (60_exceptions.md R108, R112; log 3). -/

namespace Sys2Proof.Machine

/-- One step of an instance built with the parameters `c` (00_scope.md R4). -/
def stepWith (c : Params) (s : State) : Host.Outcome State Fault Refusal :=
  match s.take with
  | .idle => .next s
  | .reset t => .next (t.takeReset c)
  | .command cmd t =>
    match (decode cmd).illFormed c with
    | some why => .refused (.illFormed why)
    | none => exec (decode cmd) t

/-- One step of an instance with the default parameters. -/
def step (s : State) : Host.Outcome State Fault Refusal := stepWith Config.params s

/-- The state in which the host issues the opcode-table word `w` next, with no beats on `din` and
`kin` (log 2, log 15). A number of more than 36 bits is no command word, so nothing is issued. -/
def State.withFetchWord (s : State) (nbits w : Nat) : State :=
  match tableCmdWord nbits w with
  | .ok cw => s.issueFirst ⟨cw, [], []⟩
  | .error _ => s

end Sys2Proof.Machine
end

