-- ==== Sys2Proof/Machine/Assembly.lean ====
section
/-! DEFINITION. The assembler text of a command (30_encoding.md R55): the mnemonic, the 32-bit operand if it
has one, the sequence operands, separated by commas; a sequence is a bracketed list of bytes or a quoted
ASCII string. Text is a list of characters. `asmText` writes it, with bracketed lists; `readAsm` reads it,
in either form, with any number of spaces between its parts. The spec gives a reserved opcode no text
(log 17). -/

namespace Sys2Proof.Machine

/-- One hexadecimal digit. -/
def hexDigit (n : Nat) : Char :=
  ['0', '1', '2', '3', '4', '5', '6', '7', '8', '9', 'a', 'b', 'c', 'd', 'e', 'f'].getD (n % 16) '0'

/-- The low `d` hexadecimal digits of a number, the highest first. -/
def hexDigits : Nat → Nat → List Char
  | 0, _ => []
  | d + 1, n => hexDigits d (n / 16) ++ [hexDigit n]

/-- A 32-bit operand, `0x` and eight digits. -/
def wordText (w : Word) : List Char := '0' :: 'x' :: hexDigits 8 w.toNat

/-- One byte, `0x` and two digits. -/
def byteText (b : Byte) : List Char := '0' :: 'x' :: hexDigits 2 b.toNat

/-- Bytes separated by a comma and a space. -/
def bytesText : List Byte → List Char
  | [] => []
  | [b] => byteText b
  | b :: bs => byteText b ++ [',', ' '] ++ bytesText bs

/-- A sequence, bracketed. -/
def seqText (bs : List Byte) : List Char := ['['] ++ bytesText bs ++ [']']

/-- The text of a command; `none` for a reserved opcode. -/
def asmText : Instr → Option (List Char)
  | .ldf f => some (['L', 'D', 'F', ' '] ++ wordText f)
  | .seed s => some (['S', 'E', 'E', 'D', ' '] ++ wordText s)
  | .step => some ['S', 'T', 'E', 'P']
  | .ksb => some ['K', 'S', 'B']
  | .enc s p => some (['E', 'N', 'C', ' '] ++ wordText s ++ [',', ' '] ++ seqText p)
  | .decs s c => some (['D', 'E', 'C', 'S', ' '] ++ wordText s ++ [',', ' '] ++ seqText c)
  | .deck c k => some (['D', 'E', 'C', 'K', ' '] ++ seqText c ++ [',', ' '] ++ seqText k)
  | .decr => some ['D', 'E', 'C', 'R']
  | .reserved0 | .reserved9 | .reservedA | .reservedB => none
  | .reservedC | .reservedD | .reservedE | .reservedF => none

/-! Reading. -/

/-- The parts of a line: a run of other characters, a punctuation mark, or a quoted string. -/
inductive Token where
  | word (w : List Char)
  | comma
  | openBracket
  | closeBracket
  | quoted (w : List Char)
  deriving DecidableEq, Repr

/-- The quotation mark. -/
def quoteChar : Char := Char.ofNat 34

/-- The word collected so far, if there is one, before what follows. -/
def endWord (w : List Char) (ts : List Token) : List Token := if w = [] then ts else .word w :: ts

/-- A line cut into its parts: `quote` says whether the characters stand between quotation marks, `w`
holds the characters of the part collected so far. A quotation mark left open is no line. -/
def lexLine : (quote : Bool) → (w : List Char) → List Char → Option (List Token)
  | false, w, [] => some (endWord w [])
  | true, _, [] => none
  | false, w, c :: cs =>
    if c = ' ' then (lexLine false [] cs).map (endWord w)
    else if c = ',' then (lexLine false [] cs).map fun ts => endWord w (.comma :: ts)
    else if c = '[' then (lexLine false [] cs).map fun ts => endWord w (.openBracket :: ts)
    else if c = ']' then (lexLine false [] cs).map fun ts => endWord w (.closeBracket :: ts)
    else if c = quoteChar then (lexLine true [] cs).map (endWord w)
    else lexLine false (w ++ [c]) cs
  | true, w, c :: cs =>
    if c = quoteChar then (lexLine false [] cs).map fun ts => .quoted w :: ts
    else lexLine true (w ++ [c]) cs

/-- The value of a hexadecimal digit, of either case. -/
def hexDigitValue (c : Char) : Option Nat :=
  if 48 ≤ c.toNat ∧ c.toNat ≤ 57 then some (c.toNat - 48)
  else if 97 ≤ c.toNat ∧ c.toNat ≤ 102 then some (c.toNat - 87)
  else if 65 ≤ c.toNat ∧ c.toNat ≤ 70 then some (c.toNat - 55)
  else none

/-- Hexadecimal digits read after a number already read. -/
def readDigits : Nat → List Char → Option Nat
  | n, [] => some n
  | n, c :: cs =>
    match hexDigitValue c with
    | none => none
    | some d => readDigits (16 * n + d) cs

/-- A hexadecimal number of at most `bits` bits: `0x` and at least one digit. -/
def readNumber (bits : Nat) : List Char → Option (BitVec bits)
  | '0' :: 'x' :: c :: cs =>
    match readDigits 0 (c :: cs) with
    | none => none
    | some n => if n < 2 ^ bits then some (BitVec.ofNat bits n) else none
  | _ => none

/-- The bytes of a bracketed list, from the first to the closing bracket, and what follows it. -/
def readElements : List Token → Option (List Byte × List Token)
  | .word w :: .closeBracket :: ts =>
    match readNumber 8 w with
    | none => none
    | some b => some ([b], ts)
  | .word w :: .comma :: ts =>
    match readNumber 8 w, readElements ts with
    | some b, some (bs, rest) => some (b :: bs, rest)
    | _, _ => none
  | _ => none

/-- A sequence: a bracketed list of bytes or a quoted ASCII string; and what follows it. -/
def readSequence : List Token → Option (List Byte × List Token)
  | .quoted w :: ts =>
    if w.all fun c => c.toNat < 128 then some (w.map fun c => BitVec.ofNat 8 c.toNat, ts) else none
  | .openBracket :: .closeBracket :: ts => some ([], ts)
  | .openBracket :: ts => readElements ts
  | _ => none

/-- A line that is a 32-bit operand. -/
def readWordOperand : List Token → Option Word
  | [.word w] => readNumber 32 w
  | _ => none

/-- A line that is a 32-bit operand and a sequence. -/
def readWordAndSequence : List Token → Option (Word × List Byte)
  | .word w :: .comma :: ts =>
    match readNumber 32 w, readSequence ts with
    | some v, some (bs, []) => some (v, bs)
    | _, _ => none
  | _ => none

/-- A line that is two sequences. -/
def readTwoSequences (ts : List Token) : Option (List Byte × List Byte) :=
  match readSequence ts with
  | some (bs, .comma :: rest) =>
    match readSequence rest with
    | some (cs, []) => some (bs, cs)
    | _ => none
  | _ => none

/-- The command a mnemonic and its operands stand for. -/
def readOperands (m : List Char) (ts : List Token) : Option Instr :=
  if m = ['L', 'D', 'F'] then (readWordOperand ts).map .ldf
  else if m = ['S', 'E', 'E', 'D'] then (readWordOperand ts).map .seed
  else if m = ['S', 'T', 'E', 'P'] then (if ts = [] then some .step else none)
  else if m = ['K', 'S', 'B'] then (if ts = [] then some .ksb else none)
  else if m = ['E', 'N', 'C'] then (readWordAndSequence ts).map fun o => .enc o.1 o.2
  else if m = ['D', 'E', 'C', 'S'] then (readWordAndSequence ts).map fun o => .decs o.1 o.2
  else if m = ['D', 'E', 'C', 'K'] then (readTwoSequences ts).map fun o => .deck o.1 o.2
  else if m = ['D', 'E', 'C', 'R'] then (if ts = [] then some .decr else none)
  else none

/-- The command a line of assembler text stands for. -/
def readAsm (cs : List Char) : Option Instr :=
  match lexLine false [] cs with
  | some (.word m :: ts) => readOperands m ts
  | _ => none

end Sys2Proof.Machine
end

