-- ==== Sys2Proof/Machine/Program.lean ====
section
/-! DEFINITION. Programs and pseudo-instructions (30_encoding.md R55, R56): a program is a list of commands
issued in order to one instance. -/

namespace Sys2Proof.Machine

/-- The commands of a program executed in order, up to the first stop. -/
def execAll : List Instr → State → Host.Outcome State Fault Refusal
  | [], s => .next s
  | i :: prog, s =>
    match exec i s with
    | .next t => execAll prog t
    | .fault r => .fault r
    | .refused r => .refused r

/-- The host issues a program behind what it has queued, each command in its canonical form. -/
def State.issue (s : State) (prog : List Instr) : State :=
  { s with pending := s.pending ++ prog.map fun i => .command (encode i) }

/-- `n` steps of an instance built with the parameters `c`, up to the first stop. -/
def runWith (c : Params) : Nat → State → Host.Outcome State Fault Refusal
  | 0, s => .next s
  | n + 1, s =>
    match stepWith c s with
    | .next t => runWith c n t
    | .fault r => .fault r
    | .refused r => .refused r

/-- The response of the command that ended last. -/
def State.lastResponse (s : State) : Option Response := s.responses.getLast?

/-- The source's named operations (R56). -/
inductive Pseudo where
  /-- `encrypt(p, s, f)`. -/
  | encrypt (p : List Byte) (s f : Word)
  /-- `decryptWithSeed(c, s, f)`. -/
  | decryptWithSeed (c : List Byte) (s f : Word)
  /-- `decryptWithKeystream(c, k)`. -/
  | decryptWithKeystream (c k : List Byte)
  /-- `decrypt()` by the stored-keystream strategy. -/
  | decrypt
  /-- `decrypt` with an explicit seed supplied. -/
  | decryptSeeded (c : List Byte) (s f : Word)
  /-- `nextKeystreamByte` from state `(s, f)`. -/
  | nextKeystreamByte (s f : Word)
  /-- `stepRegister(s, f)`. -/
  | stepRegister (s f : Word)
  deriving DecidableEq, Repr

/-- The command sequence each stands for (R56). -/
def Pseudo.expand : Pseudo → List Instr
  | .encrypt p s f => [.ldf f, .enc s p]
  | .decryptWithSeed c s f => [.ldf f, .decs s c]
  | .decryptWithKeystream c k => [.deck c k]
  | .decrypt => [.decr]
  | .decryptSeeded c s f => [.ldf f, .decs s c]
  | .nextKeystreamByte s f => [.ldf f, .seed s, .ksb]
  | .stepRegister s f => [.ldf f, .seed s, .step]

end Sys2Proof.Machine
end

