-- ==== Sys2Proof/Machine/System.lean ====
section
/-! DEFINITION. Several block instances (10_state.md R26, 60_exceptions.md R113): each has a state of its
own, steps by its own commands, and shares nothing. Which instance steps next is a schedule from outside;
DESIGN CHOICE (log 16). -/

namespace Sys2Proof.Machine

/-- The instances of a system, by number. -/
abbrev Instances := List State

/-- Instance `k` takes one step; a number with no instance does nothing (log 16). -/
def Instances.step (sys : Instances) (k : Nat) : Host.Outcome Instances Fault Refusal :=
  match sys[k]? with
  | none => .next sys
  | some s =>
    match Sys2Proof.Machine.step s with
    | .next t => .next (sys.set k t)
    | .fault r => .fault r
    | .refused r => .refused r

/-- The instances step in the order of the schedule, up to the first stop. -/
def Instances.run : List Nat → Instances → Host.Outcome Instances Fault Refusal
  | [], sys => .next sys
  | k :: sched, sys =>
    match Instances.step sys k with
    | .next sys' => Instances.run sched sys'
    | .fault r => .fault r
    | .refused r => .refused r

end Sys2Proof.Machine
end

