-- ==== Sys2Proof/Safety.lean ====
section
/-! DEFINITION. What counts as a good state and a safe run: the invariants of the store (10_state.md R17),
and a run that never stops. -/

namespace Sys2Proof.Machine

/-- The shape of the store (R17, R30): the cells of both spaces are exactly those with
`0 <= i < LEN`, and nothing is recorded while `VALID = 0`. -/
abbrev Block.storeWf (b : Block) : Prop :=
  Memory.addresses b.ks = List.range b.len ∧ Memory.addresses b.cb = List.range b.len ∧
    (b.valid = false → b.len = 0)

/-- What the record means (R17): with `VALID = 1` there are a seed `s`, a constant `f` and a plaintext
`p` of `LEN` bytes with `KS = keystream(s, f, LEN)` and `CB[i] = KS[i] xor p[i]`. -/
def Block.storeRecordsSession (b : Block) : Prop :=
  b.valid = true → ∃ s f p, p.length = b.len ∧
    b.ks = Memory.ofBytes (keystream s f b.len) ∧
    b.cb = Memory.ofBytes (xorBytes (keystream s f b.len) p)

/-- The invariant of an instance. -/
structure State.Inv (s : State) : Prop where
  shape : s.block.storeWf
  record : s.block.storeRecordsSession

/-- A safe run: however many steps are taken, none of them stops. -/
def State.RunsForever (s : State) : Prop :=
  ∀ n, ∃ t, Host.Core.run Sys2Proof.core n s = .next t

/-- Whether an `ENC` has completed since the last reset (R16), for events taken in order after a
history for which the answer was `before`. -/
def encSinceReset : Bool → List Event → Bool
  | before, [] => before
  | _, .reset :: evs => encSinceReset false evs
  | before, .command c :: evs =>
    match decode c with
    | .enc _ _ => encSinceReset true evs
    | _ => encSinceReset before evs

/-- The six elements of R10, named, for the access table of R22. -/
inductive Element where
  | r
  | f
  | ks
  | cb
  | len
  | valid
  deriving DecidableEq, Repr

/-- Two blocks hold the same value in an element. -/
def Element.agree : Element → Block → Block → Prop
  | .r, a, b => a.r = b.r
  | .f, a, b => a.f = b.f
  | .ks, a, b => a.ks = b.ks
  | .cb, a, b => a.cb = b.cb
  | .len, a, b => a.len = b.len
  | .valid, a, b => a.valid = b.valid

/-- The elements whose value before the command it reads (R22; `ENC` and `DECS` read `R` only after
their own load of it). -/
def elementsRead : Instr → List Element
  | .ldf _ | .seed _ => []
  | .step | .ksb => [.r, .f]
  | .enc _ _ | .decs _ _ => [.f]
  | .deck _ _ => []
  | .decr => [.ks, .cb, .len, .valid]
  | .reserved0 | .reserved9 | .reservedA | .reservedB => []
  | .reservedC | .reservedD | .reservedE | .reservedF => []

/-- The elements a command writes (R22). -/
def elementsWritten : Instr → List Element
  | .ldf _ => [.f]
  | .seed _ | .step | .ksb | .decs _ _ => [.r]
  | .enc _ _ => [.r, .ks, .cb, .len, .valid]
  | .deck _ _ | .decr => []
  | .reserved0 | .reserved9 | .reservedA | .reservedB => []
  | .reservedC | .reservedD | .reservedE | .reservedF => []

/-- The lengths of `dout` and `kout` when `err` is `OK` (30_encoding.md R48), `len` being `LEN` before
the command; a reserved opcode never answers `OK`. -/
def responseLengths (len : Nat) : Instr → Nat × Nat
  | .ldf _ | .seed _ | .step => (0, 0)
  | .ksb => (0, 1)
  | .enc _ p => (p.length, p.length)
  | .decs _ c => (c.length, 0)
  | .deck c _ => (c.length, 0)
  | .decr => (len, 0)
  | .reserved0 | .reserved9 | .reservedA | .reservedB => (0, 0)
  | .reservedC | .reservedD | .reservedE | .reservedF => (0, 0)

/-- The eight reserved opcodes (30_encoding.md R51). -/
def reservedInstrs : List Instr :=
  [.reserved0, .reserved9, .reservedA, .reservedB, .reservedC, .reservedD, .reservedE, .reservedF]

end Sys2Proof.Machine
end

