-- ==== Sys2Proof/Certificates/Slice0/Obligations.lean ====
section
/-! DEFINITION. The statements of this model, for the provers. "D<n>" is a decision of
spec/92_eei_decisions.md that the cited rule rests on; "log <n>" is notes/assumptions/<n>.md. -/

open Sys2Proof Sys2Proof.Machine

/-! Encoding. -/

/-- Words written out from the spec's tables (95_test_vectors.md 2.8 and part 3) decode to the commands
they stand for, whatever stands on the ports they do not sample. -/
def Obligations.WrittenOutWordsDecode : Prop :=
  ∀ din kin : List Byte,
    decode ⟨0x17fe00ae3#36, din, kin⟩ = .ldf 0x7fe00ae3#32 ∧
    decode ⟨0x2478e29a4#36, din, kin⟩ = .seed 0x478e29a4#32 ∧
    decode ⟨0x3ffffffff#36, din, kin⟩ = .step ∧
    decode ⟨0x400000000#36, din, kin⟩ = .ksb ∧
    decode ⟨0x5deadbeef#36, din, kin⟩ = .enc 0xdeadbeef#32 din ∧
    decode ⟨0x6478e29a4#36, din, kin⟩ = .decs 0x478e29a4#32 din ∧
    decode ⟨0x700000000#36, din, kin⟩ = .deck din kin ∧
    decode ⟨0x800000000#36, din, kin⟩ = .decr ∧
    decode ⟨0x000000000#36, din, kin⟩ = .reserved0 ∧
    decode ⟨0x900000000#36, din, kin⟩ = .reserved9 ∧
    decode ⟨0xf12345678#36, din, kin⟩ = .reservedF

/-- Decoding the encoding of any command gives the command back, with every operand at every value
(30_encoding.md R54, which the spec derives from R47, R49, R51, R52). -/
def Obligations.DecodeOfEncodeIsIdentity : Prop :=
  ∀ i : Instr, decode (encode i) = i

/-- R49: the opcode alone selects the command, by `cmd & 0xF00000000`, and the operands are those of
the map. (D3, D4.) -/
def Obligations.OpcodeMapSelectsCommand : Prop :=
  ∀ (w : CmdWord) (din kin : List Byte),
    (w &&& 0xF00000000#36 = 0x000000000#36 → decode ⟨w, din, kin⟩ = .reserved0) ∧
    (w &&& 0xF00000000#36 = 0x100000000#36 → decode ⟨w, din, kin⟩ = .ldf (argField w)) ∧
    (w &&& 0xF00000000#36 = 0x200000000#36 → decode ⟨w, din, kin⟩ = .seed (argField w)) ∧
    (w &&& 0xF00000000#36 = 0x300000000#36 → decode ⟨w, din, kin⟩ = .step) ∧
    (w &&& 0xF00000000#36 = 0x400000000#36 → decode ⟨w, din, kin⟩ = .ksb) ∧
    (w &&& 0xF00000000#36 = 0x500000000#36 → decode ⟨w, din, kin⟩ = .enc (argField w) din) ∧
    (w &&& 0xF00000000#36 = 0x600000000#36 → decode ⟨w, din, kin⟩ = .decs (argField w) din) ∧
    (w &&& 0xF00000000#36 = 0x700000000#36 → decode ⟨w, din, kin⟩ = .deck din kin) ∧
    (w &&& 0xF00000000#36 = 0x800000000#36 → decode ⟨w, din, kin⟩ = .decr) ∧
    (w &&& 0xF00000000#36 = 0x900000000#36 → decode ⟨w, din, kin⟩ = .reserved9) ∧
    (w &&& 0xF00000000#36 = 0xA00000000#36 → decode ⟨w, din, kin⟩ = .reservedA) ∧
    (w &&& 0xF00000000#36 = 0xB00000000#36 → decode ⟨w, din, kin⟩ = .reservedB) ∧
    (w &&& 0xF00000000#36 = 0xC00000000#36 → decode ⟨w, din, kin⟩ = .reservedC) ∧
    (w &&& 0xF00000000#36 = 0xD00000000#36 → decode ⟨w, din, kin⟩ = .reservedD) ∧
    (w &&& 0xF00000000#36 = 0xE00000000#36 → decode ⟨w, din, kin⟩ = .reservedE) ∧
    (w &&& 0xF00000000#36 = 0xF00000000#36 → decode ⟨w, din, kin⟩ = .reservedF)

/-- On the canonical commands, those with `arg = 0` where `arg` is not used and nothing on the ports
that are not sampled, `encode` is the inverse of `decode` (R54, derived by the spec; R52). -/
def Obligations.EncodeOfDecodeOnCanonicalCommands : Prop :=
  ∀ c : Command,
    (usesArg (opField c.cmd) = false → argField c.cmd = 0#32) →
    (samplesDin (opField c.cmd) = false → c.din = []) →
    (samplesKin (opField c.cmd) = false → c.kin = []) →
    encode (decode c) = c

/-- R52: `arg` has no effect on `STEP`, `KSB`, `DECK`, `DECR`; `din` is not sampled by `LDF`, `SEED`,
`STEP`, `KSB`, `DECR`; `kin` is sampled by `DECK` only. (D5.) -/
def Obligations.UnusedFieldsHaveNoEffect : Prop :=
  ∀ (w w' : CmdWord) (din din' kin kin' : List Byte),
    (opField w ∈ [3#4, 4#4, 7#4, 8#4] → opField w' = opField w →
      decode ⟨w', din, kin⟩ = decode ⟨w, din, kin⟩) ∧
    (opField w ∈ [1#4, 2#4, 3#4, 4#4, 8#4] → decode ⟨w, din', kin⟩ = decode ⟨w, din, kin⟩) ∧
    (opField w ≠ 7#4 → decode ⟨w, din, kin'⟩ = decode ⟨w, din, kin⟩)

/-! The step of an instance. -/

/-- A step with a command queued is `exec` of the decoded command, with the command taken off the
queue, for every set of parameters under which the command is well formed; with the default parameters
for every command (R45). -/
def Obligations.StepRunsTheIssuedCommand : Prop :=
  (∀ (c : Params) (s : State) (cmd : Command) (rest : List Event),
    s.pending = .command cmd :: rest → (decode cmd).wellFormed c = true →
    stepWith c s = exec (decode cmd) { s with pending := rest }) ∧
  (∀ (s : State) (cmd : Command) (rest : List Event), s.pending = .command cmd :: rest →
    Sys2Proof.Machine.step s = exec (decode cmd) { s with pending := rest })

/-- The opcode-table word placed by `withFetchWord` is what the next step runs, and what
`decodeTableWord` reads; the model's own interface (log 2, log 15). -/
def Obligations.PlacedTableWordRunsNext : Prop :=
  ∀ (s : State) (nbits w : Nat), 36 ≤ nbits → w < 2 ^ 36 →
    decodeTableWord nbits w = some (decode ⟨BitVec.ofNat 36 w, [], []⟩) ∧
    Sys2Proof.Machine.step (s.withFetchWord nbits w) = exec (decode ⟨BitVec.ofNat 36 w, [], []⟩) s

/-- The reset event gives every element its reset value, whatever it held, and no response; the rest
of the queue is what it was (70_reset_and_hazards.md R120; D14). -/
def Obligations.ResetEventSetsEveryElement : Prop :=
  ∀ (c : Params) (s : State) (rest : List Event), s.pending = .reset :: rest →
    stepWith c s = .next
      { block := ⟨c.defaultSeed, c.defaultFeedback, [], [], 0, false⟩,
        pending := rest, responses := s.responses }

/-- R23: the value of every element after reset, for any parameters and for the defaults of R4. (D14,
D30.) -/
def Obligations.ResetValuesOfTheSixElements : Prop :=
  (∀ c : Params, (State.resetWith c).block =
    ⟨c.defaultSeed, c.defaultFeedback, [], [], 0, false⟩) ∧
  State.reset.block = ⟨0x478e29a4#32, 0x7fe00ae3#32, [], [], 0, false⟩

/-- With nothing issued the state does not change (60_exceptions.md R108, R112). That such a step is a
next state is the model's reading (log 3). -/
def Obligations.IdleInstanceHoldsItsState : Prop :=
  ∀ (c : Params) (s : State), s.pending = [] → stepWith c s = .next s

/-- R32: the store is unbounded by default; built for a finite `STORE_DEPTH`, the block refuses an
`ENC` whose `N` exceeds it and runs every other `ENC`. (D10.) -/
def Obligations.FiniteStoreRefusesLongerEnc : Prop :=
  Config.params.storeDepth = none ∧ Config.params.lenBits = none ∧
  ∀ (c : Params) (d : Nat) (s : State) (cmd : Command) (rest : List Event) (v : Word)
    (p : List Byte),
    c.storeDepth = some d → c.lenBits = none → s.pending = .command cmd :: rest →
    decode cmd = .enc v p →
    (d < p.length → stepWith c s = .refused (.illFormed .storeTooSmall)) ∧
    (p.length ≤ d → stepWith c s = exec (.enc v p) { s with pending := rest })

/-! The generator's functions. -/

/-- R60: the two cases of a step, the shift filling with zero (D31), and the rule's worked examples. -/
def Obligations.StepFunctionTwoCases : Prop :=
  (∀ s f : Word,
    (s.getLsbD 0 = true →
      stepRegister s f = ((0#1 ++ s.extractLsb' 1 31 : BitVec 32)) ^^^ f) ∧
    (s.getLsbD 0 = false → stepRegister s f = (0#1 ++ s.extractLsb' 1 31 : BitVec 32))) ∧
  stepRegister 0x478e29a4#32 0x7fe00ae3#32 = 0x23c714d2#32 ∧
  stepRegister 0x11e38a69#32 0x7fe00ae3#32 = 0x7711cfd7#32

/-- R61: the next value bit by bit, and the equivalent circuit that selects between 0 and `F` and XORs
the selected value into the shifted one (D16). -/
def Obligations.StepFunctionBitByBit : Prop :=
  ∀ s f : Word,
    (∀ i, i ≤ 30 → (stepRegister s f).getLsbD i =
      (s.getLsbD (i + 1) ^^ (s.getLsbD 0 && f.getLsbD i))) ∧
    (stepRegister s f).getLsbD 31 = (s.getLsbD 0 && f.getLsbD 31) ∧
    stepRegister s f = (s >>> 1) ^^^ (if s.getLsbD 0 then f else 0#32)

/-- For a fixed constant, a step, the keystream byte and the keystream are linear over XOR in the seed;
a step is not linear in the pair (40_generator.md R71, derived by the spec from R60). -/
def Obligations.KeystreamIsLinearInTheSeed : Prop :=
  (∀ a b f : Word, stepRegister (a ^^^ b) f = stepRegister a f ^^^ stepRegister b f) ∧
  (∀ f : Word, stepRegister 0#32 f = 0#32) ∧
  (∀ a b f : Word, (ksb (a ^^^ b) f).1 = (ksb a f).1 ^^^ (ksb b f).1) ∧
  (∀ (a b f : Word) (n : Nat),
    keystream (a ^^^ b) f n = xorBytes (keystream a f n) (keystream b f n)) ∧
  (∃ a b f g : Word,
    stepRegister (a ^^^ b) (f ^^^ g) ≠ stepRegister a f ^^^ stepRegister b g)

/-- Bit 31 after a step; with `F[31] = 1` a step is a bijection with the inverse the rule gives; with
`F[31] = 0` exactly two states step to each value with bit 31 clear; the rule's pair of colliding seeds
(40_generator.md R72, derived by the spec from R60 and R61). -/
def Obligations.StepInverseAndCollisions : Prop :=
  (∀ s f : Word, (stepRegister s f).getLsbD 31 = (s.getLsbD 0 && f.getLsbD 31)) ∧
  (∀ s f : Word, f.getLsbD 31 = true →
    unstepRegister (stepRegister s f) f = s ∧ stepRegister (unstepRegister s f) f = s) ∧
  (∀ x s f : Word, f.getLsbD 31 = false → x.getLsbD 31 = false →
    (stepRegister s f = x ↔
      s = (x.extractLsb' 0 31 ++ 0#1 : BitVec 32) ∨
      s = ((x ^^^ f).extractLsb' 0 31 ++ 1#1 : BitVec 32))) ∧
  stepRegister 0x478e29a4#32 0x7fe00ae3#32 = 0x23c714d2#32 ∧
  stepRegister 0xb84e3c63#32 0x7fe00ae3#32 = 0x23c714d2#32

/-- The special values of 40_generator.md R73 (derived by the spec from R60 and R64): the zero state,
the zero constant, the seed 1, all ones. -/
def Obligations.SpecialSeedsAndConstants : Prop :=
  (∀ (f : Word) (n : Nat), keystream 0#32 f n = List.replicate n 0#8 ∧
    stepRegister 0#32 f = 0#32) ∧
  (∀ (s : State) (p : List Byte), ∃ t, exec (.enc 0#32 p) s = .next t ∧
    t.responses = s.responses ++ [⟨.ok, p, List.replicate p.length 0#8⟩]) ∧
  (∀ s : Word, stepRegister s 0#32 = s >>> 1 ∧ ksb s 0#32 = (s.extractLsb' 8 8, s >>> 8) ∧
    stepTimes 32 s 0#32 = 0#32) ∧
  (∀ (s : Word) (n : Nat), keystream s 0#32 n =
    ([s.extractLsb' 8 8, s.extractLsb' 16 8, s.extractLsb' 24 8] ++ List.replicate n 0#8).take n) ∧
  (∀ f : Word, stepRegister 1#32 f = f) ∧
  stepRegister 0xffffffff#32 0xffffffff#32 = 0x80000000#32

/-- R64: eight steps, the state threaded through, the low 8 bits of the state after the eighth, and
that state; the rule's worked example. -/
def Obligations.KeystreamByteAfterEightSteps : Prop :=
  (∀ s f : Word,
    let t1 := stepRegister s f
    let t2 := stepRegister t1 f
    let t3 := stepRegister t2 f
    let t4 := stepRegister t3 f
    let t5 := stepRegister t4 f
    let t6 := stepRegister t5 f
    let t7 := stepRegister t6 f
    let t8 := stepRegister t7 f
    ksb s f = (t8.extractLsb' 0 8, t8)) ∧
  ksb 0x478e29a4#32 0x7fe00ae3#32 = (0x33#8, 0x7ba68433#32)

/-- R68: element `i` of a keystream is the low byte after `8*(i+1)` steps, there are `N` elements, and
`final_state` is `8*N` steps; the rule's sixteen bytes. -/
def Obligations.KeystreamElementsFromSteps : Prop :=
  (∀ (s f : Word) (n : Nat), (keystream s f n).length = n ∧
    finalState s f n = stepTimes (8 * n) s f ∧
    ∀ i, i < n →
      (keystream s f n)[i]? = some ((stepTimes (8 * (i + 1)) s f).extractLsb' 0 8)) ∧
  (∀ s f : Word, keystream s f 0 = [] ∧ finalState s f 0 = s) ∧
  keystream 0x478e29a4#32 0x7fe00ae3#32 16 =
    [0x33#8, 0x1e#8, 0xa5#8, 0xc4#8, 0xa5#8, 0x26#8, 0xa1#8, 0x9d#8,
      0x43#8, 0x71#8, 0x16#8, 0x8c#8, 0x9b#8, 0x3c#8, 0xf3#8, 0xef#8] ∧
  finalState 0x478e29a4#32 0x7fe00ae3#32 16 = 0x6b397def#32

/-- A shorter keystream is the first part of a longer one, and the longer one goes on from the state
the shorter one leaves (40_generator.md R69, the prefix law, with R68). -/
def Obligations.KeystreamPrefixLaw : Prop :=
  ∀ (s f : Word) (m n : Nat),
    (m ≤ n → keystream s f m = (keystream s f n).take m) ∧
    keystream s f (m + n) = keystream s f m ++ keystream (finalState s f m) f n

/-! The generator's commands. -/

/-- R67: `LDF f` writes `F` and nothing else, answers `(OK, [], [])`, for every `f` and every state;
its word is `0x1_ffffffff`. (D22, D30.) -/
def Obligations.LdfLoadsFeedback : Prop :=
  (∀ (f : Word) (s : State), exec (.ldf f) s = .next
    { block := { s.block with f := f }, pending := s.pending,
      responses := s.responses ++ [⟨.ok, [], []⟩] }) ∧
  (∀ f : Word, encode (.ldf f) = ⟨0x1#4 ++ f, [], []⟩)

/-- R66: `SEED s` writes `R` and nothing else, answers `(OK, [], [])`, for every `s` and every state;
its word is `0x2_ssssssss`. (D3, D32.) -/
def Obligations.SeedLoadsRegister : Prop :=
  (∀ (v : Word) (s : State), exec (.seed v) s = .next
    { block := { s.block with r := v }, pending := s.pending,
      responses := s.responses ++ [⟨.ok, [], []⟩] }) ∧
  (∀ v : Word, encode (.seed v) = ⟨0x2#4 ++ v, [], []⟩)

/-- R62: `STEP` writes `R` with `step(R, F)` and nothing else, answers `(OK, [], [])`, in every state;
its canonical word; its corner cases and worked example. (D3.) -/
def Obligations.StepCommandStepsRegister : Prop :=
  (∀ s : State, exec .step s = .next
    { block := { s.block with r := stepRegister s.block.r s.block.f }, pending := s.pending,
      responses := s.responses ++ [⟨.ok, [], []⟩] }) ∧
  encode .step = ⟨0x300000000#36, [], []⟩ ∧
  (∀ f : Word, stepRegister 0#32 f = 0#32) ∧
  (∀ s : Word, stepRegister s 0#32 = s >>> 1) ∧
  stepRegister 0x00000001#32 0x7fe00ae3#32 = 0x7fe00ae3#32

/-- R65: `KSB` writes `R` with the state after eight steps and nothing else, answers `(OK, [], [k])`
with `k` the low byte, in every state; its canonical word; its corner cases and worked examples. (D3.) -/
def Obligations.KsbDerivesOneByte : Prop :=
  (∀ s : State, exec .ksb s = .next
    { block := { s.block with r := (ksb s.block.r s.block.f).2 }, pending := s.pending,
      responses := s.responses ++ [⟨.ok, [], [(ksb s.block.r s.block.f).1]⟩] }) ∧
  encode .ksb = ⟨0x400000000#36, [], []⟩ ∧
  (∀ f : Word, ksb 0#32 f = (0#8, 0#32)) ∧
  (∀ s : Word, (ksb s 0#32).1 = s.extractLsb' 8 8) ∧
  ksb 0x478e29a4#32 0x7fe00ae3#32 = (0x33#8, 0x7ba68433#32) ∧
  ksb 0x7ba68433#32 0x7fe00ae3#32 = (0x1e#8, 0x54916a1e#32)

/-- From the same state, eight `STEP`s leave the block as one `KSB` does, whose byte is `r_q[7:0]` after
the eighth; and `SEED s` with `N` `KSB`s returns `keystream(s, F, N)` byte by byte and leaves
`final_state(s, F, N)` (40_generator.md R70, derived by the spec). -/
def Obligations.EightStepsEqualOneKsb : Prop :=
  (∀ s : State, ∃ t u, execAll (List.replicate 8 .step) s = .next t ∧ exec .ksb s = .next u ∧
    t.block = u.block ∧ u.responses = s.responses ++ [⟨.ok, [], [t.rq.extractLsb' 0 8]⟩]) ∧
  (∀ (s : State) (v : Word) (n : Nat), ∃ t,
    execAll (.seed v :: List.replicate n .ksb) s = .next t ∧
    t.block = { s.block with r := finalState v s.block.f n } ∧
    t.responses = s.responses ++ [⟨.ok, [], []⟩] ++
      (keystream v s.block.f n).map fun k => ⟨.ok, [], [k]⟩)

/-! The driver's commands. -/

/-- R80: `ENC s, p`, for every seed, every plaintext (the empty one too) and every state: the whole next
state and the response, and its word `0x5_ssssssss`. Everything the store held is gone. (D11, D13,
D29; log 8, log 9.) -/
def Obligations.EncEncryptsAndRecords : Prop :=
  (∀ (v : Word) (p : List Byte) (s : State),
    let ks := keystream v s.block.f p.length
    exec (.enc v p) s = .next
      { block :=
          { r := finalState v s.block.f p.length, f := s.block.f,
            ks := Memory.ofBytes ks, cb := Memory.ofBytes (xorBytes ks p),
            len := p.length, valid := true },
        pending := s.pending,
        responses := s.responses ++ [⟨.ok, xorBytes ks p, ks⟩] }) ∧
  (∀ (v : Word) (p : List Byte), encode (.enc v p) = ⟨0x5#4 ++ v, p, []⟩)

/-- R81: `DECS s, c`, for every seed, every ciphertext and every state: `R` is written, the store and
`VALID` are not, and the response; its word `0x6_ssssssss`. (D12, D13, D23; log 8.) -/
def Obligations.DecsDecryptsByReseeding : Prop :=
  (∀ (v : Word) (c : List Byte) (s : State), exec (.decs v c) s = .next
    { block := { s.block with r := finalState v s.block.f c.length }, pending := s.pending,
      responses := s.responses ++ [⟨.ok, xorBytes (keystream v s.block.f c.length) c, []⟩] }) ∧
  (∀ (v : Word) (c : List Byte), encode (.decs v c) = ⟨0x6#4 ++ v, c, []⟩)

/-- R82: `DECK c, k` writes no state; with equal lengths it answers the XOR of the two sequences, with
unequal ones `(LengthMismatch, [], [])`; its canonical word. -/
def Obligations.DeckCombinesEqualLengths : Prop :=
  (∀ (c k : List Byte) (s : State),
    (k.length = c.length → exec (.deck c k) s = .next
      { block := s.block, pending := s.pending,
        responses := s.responses ++ [⟨.ok, xorBytes k c, []⟩] }) ∧
    (k.length ≠ c.length → exec (.deck c k) s = .next
      { block := s.block, pending := s.pending,
        responses := s.responses ++ [⟨.lengthMismatch, [], []⟩] })) ∧
  (∀ c k : List Byte, encode (.deck c k) = ⟨0x700000000#36, c, k⟩)

/-- R83: `DECR` writes no state; with `VALID = 0` it answers `(NoKeystreamAvailable, [], [])`, with
`VALID = 1` and the store of the shape R17 gives it the XOR of the two recorded sequences; its canonical
word. (D12; log 10.) -/
def Obligations.DecrCombinesTheRecord : Prop :=
  (∀ s : State,
    (s.block.valid = false → exec .decr s = .next
      { block := s.block, pending := s.pending,
        responses := s.responses ++ [⟨.noKeystreamAvailable, [], []⟩] }) ∧
    (s.block.valid = true → s.block.storeWf → exec .decr s = .next
      { block := s.block, pending := s.pending,
        responses := s.responses ++
          [⟨.ok, xorBytes (Memory.bytes s.block.ks) (Memory.bytes s.block.cb), []⟩] } ∧
      (xorBytes (Memory.bytes s.block.ks) (Memory.bytes s.block.cb)).length = s.block.len)) ∧
  encode .decr = ⟨0x800000000#36, [], []⟩

/-- The one fault of the model, and only `DECR` raises it: with `VALID = 1`, on a cell with an index
below `LEN` that does not exist (20_memory.md R30, R31; the model's own stop, log 12). -/
def Obligations.FaultOnlyOnAbsentStoreCell : Prop :=
  ∀ (i : Instr) (s : State) (r : Fault), exec i s = .fault r →
    i = .decr ∧ s.block.valid = true ∧ ∃ n, n < s.block.len ∧
      ((r = .storeCellAbsent .ks n ∧ Memory.read s.block.ks n = none) ∨
        (r = .storeCellAbsent .cb n ∧ Memory.read s.block.cb n = none))

/-- R51 and R102: each of the eight reserved opcodes answers `(IllegalCommand, [], [])` and changes no
state, in every state. (D6; log 11.) -/
def Obligations.ReservedOpcodesRaiseIllegalCommand : Prop :=
  ∀ (i : Instr) (s : State),
    i ∈ [Instr.reserved0, .reserved9, .reservedA, .reservedB, .reservedC, .reservedD, .reservedE,
      .reservedF] →
    exec i s = .next
      { block := s.block, pending := s.pending,
        responses := s.responses ++ [⟨.illegalCommand, [], []⟩] }

/-- R87: the round trip. What `ENC s, p` answers is decrypted to `p` by `DECS` with the same seed in any
state with the same `F`, by `DECK` with its keystream in any state, and by `DECR` after any commands that
are no `ENC`. -/
def Obligations.RoundTripByAllStrategies : Prop :=
  ∀ (s : State) (v : Word) (p : List Byte), ∃ t c ks,
    exec (.enc v p) s = .next t ∧ t.responses = s.responses ++ [⟨.ok, c, ks⟩] ∧
    (∀ u : State, u.block.f = s.block.f → ∃ u', exec (.decs v c) u = .next u' ∧
      u'.responses = u.responses ++ [⟨.ok, p, []⟩]) ∧
    (∀ u : State, ∃ u', exec (.deck c ks) u = .next u' ∧
      u'.responses = u.responses ++ [⟨.ok, p, []⟩]) ∧
    (∀ (prog : List Instr) (u : State), (∀ w q, Instr.enc w q ∉ prog) →
      execAll prog t = .next u → ∃ u', exec .decr u = .next u' ∧
        u'.responses = u.responses ++ [⟨.ok, p, []⟩])

/-- After an `ENC`, every program with no `ENC` and no `LDF` runs to its end, and from where it ends the
three decryptions answer the same response, the plaintext; only `DECS` changes the block, in `R`
(41_cipher_driver.md R92, derived by the spec from R87). -/
def Obligations.DecryptStrategiesAgree : Prop :=
  ∀ (s : State) (v : Word) (p : List Byte), ∃ t c ks,
    exec (.enc v p) s = .next t ∧ t.responses = s.responses ++ [⟨.ok, c, ks⟩] ∧
    ∀ prog : List Instr, (∀ w q, Instr.enc w q ∉ prog) → (∀ f, Instr.ldf f ∉ prog) →
      ∃ u, execAll prog t = .next u ∧
        exec (.decs v c) u = .next
          { block := { u.block with r := finalState v s.block.f p.length }, pending := u.pending,
            responses := u.responses ++ [⟨.ok, p, []⟩] } ∧
        exec (.deck c ks) u = .next
          { block := u.block, pending := u.pending, responses := u.responses ++ [⟨.ok, p, []⟩] } ∧
        exec .decr u = .next
          { block := u.block, pending := u.pending, responses := u.responses ++ [⟨.ok, p, []⟩] }

/-- The response of `ENC s, p`, and the block it leaves, depend on `s`, `p` and `F` only
(41_cipher_driver.md R88, derived by the spec from R80 and R69). -/
def Obligations.EncDependsOnOperandsAndFeedbackOnly : Prop :=
  ∀ (s s' : State) (v : Word) (p : List Byte), s.block.f = s'.block.f →
    ∃ t t' resp, exec (.enc v p) s = .next t ∧ exec (.enc v p) s' = .next t' ∧
      t.block = t'.block ∧
      t.responses = s.responses ++ [resp] ∧ t'.responses = s'.responses ++ [resp]

/-- `ENC s, x` and `DECS s, x` put the same bytes on `dout`, `x[i] xor keystream(s, F, N)[i]`, and leave
the same `R` (41_cipher_driver.md R90, derived by the spec from R80 and R81). -/
def Obligations.EncAndDecsAreOneFunction : Prop :=
  ∀ (s : State) (v : Word) (x : List Byte), ∃ t u dout kout,
    exec (.enc v x) s = .next t ∧ exec (.decs v x) s = .next u ∧
    t.responses = s.responses ++ [⟨.ok, dout, kout⟩] ∧
    u.responses = s.responses ++ [⟨.ok, dout, []⟩] ∧
    t.rq = u.rq ∧ dout.length = x.length ∧
    ∀ (i : Nat) (b : Byte), x[i]? = some b →
      ∃ k, (keystream v s.block.f x.length)[i]? = some k ∧ dout[i]? = some (b ^^^ k)

/-- R91: sensitivity is only an existence statement. With the reference constant, seeds `0x478e29a4` and
`0x00000001` differ on the plaintext `[0x41]`; seeds `0x478e29a4` and `0xb84e3c63` give the same
ciphertext for every plaintext. -/
def Obligations.SensitivityIsNotALaw : Prop :=
  ∀ s : State, s.block.f = 0x7fe00ae3#32 →
    (∃ t u, exec (.enc 0x478e29a4#32 [0x41#8]) s = .next t ∧
      exec (.enc 0x00000001#32 [0x41#8]) s = .next u ∧
      t.responses = s.responses ++ [⟨.ok, [0x72#8], [0x33#8]⟩] ∧
      u.responses = s.responses ++ [⟨.ok, [0x8d#8], [0xcc#8]⟩]) ∧
    (∀ p : List Byte, ∃ t u c ks ks', exec (.enc 0x478e29a4#32 p) s = .next t ∧
      exec (.enc 0xb84e3c63#32 p) s = .next u ∧
      t.responses = s.responses ++ [⟨.ok, c, ks⟩] ∧ u.responses = s.responses ++ [⟨.ok, c, ks'⟩])

/-- R43: output element `i` of `ENC`, `DECS` and `DECK` comes from input element `i`, in index order, and
there are as many output beats as input beats. -/
def Obligations.OutputElementFromOwnInput : Prop :=
  (∀ (s : State) (v : Word) (x : List Byte), ∃ t u dout kout,
    exec (.enc v x) s = .next t ∧ exec (.decs v x) s = .next u ∧
    t.responses = s.responses ++ [⟨.ok, dout, kout⟩] ∧
    u.responses = s.responses ++ [⟨.ok, dout, []⟩] ∧
    dout.length = x.length ∧ kout.length = x.length ∧
    ∀ (i : Nat) (b k : Byte), x[i]? = some b → (keystream v s.block.f x.length)[i]? = some k →
      kout[i]? = some k ∧ dout[i]? = some (k ^^^ b)) ∧
  (∀ (s : State) (x k : List Byte), k.length = x.length → ∃ t dout,
    exec (.deck x k) s = .next t ∧ t.responses = s.responses ++ [⟨.ok, dout, []⟩] ∧
    dout.length = x.length ∧
    ∀ (i : Nat) (b kb : Byte), x[i]? = some b → k[i]? = some kb → dout[i]? = some (kb ^^^ b))

/-! Responses and errors. -/

/-- R48: a command that ends gives exactly one response; its sequences are empty when `err` is not `OK`
and have the lengths of the rule's table when it is; the four error codes. (D7, D23.) -/
def Obligations.OneResponseOfTheTabledLengths : Prop :=
  (∀ (i : Instr) (s t : State), exec i s = .next t → ∃ resp : Response,
    t.responses = s.responses ++ [resp] ∧
    (resp.err ≠ .ok → resp.dout = [] ∧ resp.kout = []) ∧
    (resp.err = .ok →
      (resp.dout.length, resp.kout.length) = responseLengths s.block.len i)) ∧
  Err.code .ok = 0#2 ∧ Err.code .lengthMismatch = 1#2 ∧
  Err.code .noKeystreamAvailable = 2#2 ∧ Err.code .illegalCommand = 3#2

/-- R100: which command raises which error, and when, and the codes. (D6, D7.) -/
def Obligations.EachErrorHasItsOneCause : Prop :=
  (∀ (i : Instr) (s t : State) (resp : Response), exec i s = .next t →
    t.responses = s.responses ++ [resp] →
    (resp.err = .lengthMismatch ↔ ∃ c k, i = .deck c k ∧ k.length ≠ c.length) ∧
    (resp.err = .noKeystreamAvailable ↔ i = .decr ∧ s.block.valid = false) ∧
    (resp.err = .illegalCommand ↔ i ∈ reservedInstrs)) ∧
  Err.code .ok = 0#2 ∧ Err.code .lengthMismatch = 1#2 ∧
  Err.code .noKeystreamAvailable = 2#2 ∧ Err.code .illegalCommand = 3#2

/-- R103: a command that raises gives `(<Error>, [], [])` and changes nothing else; issued again from
where it left the machine it raises the same error (R105). (D8.) -/
def Obligations.RaisingCommandsChangeNoState : Prop :=
  ∀ (i : Instr) (s t : State) (resp : Response), exec i s = .next t →
    t.responses = s.responses ++ [resp] → resp.err ≠ .ok →
    t = { block := s.block, pending := s.pending,
          responses := s.responses ++ [⟨resp.err, [], []⟩] } ∧
    ∃ u, exec i t = .next u ∧ u.responses = t.responses ++ [resp]

/-! Access and frames. -/

/-- The writes of the access table: an element a command does not write is what it was, and the host's
queue too (10_state.md R22, derived by the spec). -/
def Obligations.AccessTableWrites : Prop :=
  ∀ (i : Instr) (s t : State), exec i s = .next t →
    t.pending = s.pending ∧
    ∀ e : Element, e ∉ elementsWritten i → e.agree t.block s.block

/-- The reads of the access table: two states that agree on the elements a command reads get the same
response or the same fault, and agree afterwards on the elements it writes (10_state.md R22, derived
by the spec). -/
def Obligations.AccessTableReads : Prop :=
  ∀ (i : Instr) (s s' : State), (∀ e ∈ elementsRead i, e.agree s.block s'.block) →
    (∀ t, exec i s = .next t → ∃ t' resp, exec i s' = .next t' ∧
      t.responses = s.responses ++ [resp] ∧ t'.responses = s'.responses ++ [resp] ∧
      ∀ e ∈ elementsWritten i, e.agree t.block t'.block) ∧
    (∀ r, exec i s = .fault r → exec i s' = .fault r)

/-- The bytes of the store: no command but `ENC` changes a byte of either space; after an `ENC` of `N`
bytes cell `i` of `KS` is keystream byte `i` and cell `i` of `CB` its XOR with `p[i]`, and no cell with
`i >= N` exists (20_memory.md R30, R31; 41_cipher_driver.md R86). -/
def Obligations.StoreBytesAfterEachCommand : Prop :=
  (∀ (i : Instr) (s t : State), exec i s = .next t → (∀ v p, i ≠ .enc v p) → ∀ a,
    Memory.read t.block.ks a = Memory.read s.block.ks a ∧
    Memory.read t.block.cb a = Memory.read s.block.cb a) ∧
  (∀ (v : Word) (p : List Byte) (s : State), ∃ t, exec (.enc v p) s = .next t ∧
    (∀ (a : Nat) (x : Byte), p[a]? = some x → ∃ k,
      (keystream v s.block.f p.length)[a]? = some k ∧
      Memory.read t.block.ks a = some k ∧ Memory.read t.block.cb a = some (k ^^^ x)) ∧
    (∀ a, p.length ≤ a → Memory.read t.block.ks a = none ∧ Memory.read t.block.cb a = none))

/-! Invariants. -/

/-- After reset the store has the shape and the meaning of R17, for any parameters. -/
def Obligations.ResetStateMeetsInvariant : Prop :=
  ∀ c : Params, (State.resetWith c).Inv

/-- Every step, of an instance built with any parameters, keeps the invariants of the store: the cells
of both spaces are exactly `0 <= i < LEN`, `VALID = 0` means nothing is recorded, and `VALID = 1` means
the record is a keystream and its XOR with a plaintext (10_state.md R17, derived by the spec). -/
def Obligations.StepKeepsStoreInvariant : Prop :=
  ∀ (c : Params) (s t : State), s.Inv → stepWith c s = .next t → t.Inv

/-- From a state that meets the invariant no run stops: every command ends with a response, none faults,
none is refused (30_encoding.md R45: `exec` is a total function). Its idle and reset steps are the model's
own: log 3 (an idle step is a next state), log 6 (resets fall between commands). -/
def Obligations.InstancesWithInvariantRunForever : Prop :=
  ∀ s : State, s.Inv → s.RunsForever

/-- R16: after any run of queued commands and resets, from any state, `VALID` is 1 exactly when an `ENC`
(the empty one too, D11; log 9) has completed since the last reset, or it was 1 before and no reset came;
reset clears it; `DECR` raises `NoKeystreamAvailable` when it is 0. -/
def Obligations.ValidTellsOfEncSinceReset : Prop :=
  (∀ s t : State, Host.Core.run Sys2Proof.core s.pending.length s = .next t →
    t.block.valid = encSinceReset s.block.valid s.pending) ∧
  State.reset.block.valid = false ∧
  (∀ s : State, s.block.valid = false → exec .decr s = .next
    { block := s.block, pending := s.pending,
      responses := s.responses ++ [⟨.noKeystreamAvailable, [], []⟩] })

/-! Programs, hazards, instances. -/

/-- Running, by steps, a program the host issued to an idle instance is executing its commands in order
(20_memory.md R38, 30_encoding.md R55). -/
def Obligations.IssuedProgramRunsInOrder : Prop :=
  ∀ (prog : List Instr) (s : State), s.pending = [] →
    Host.Core.run Sys2Proof.core prog.length (s.issue prog) = execAll prog s

/-- The assembler text written for a command is read back as that command, with every operand; a command
has a text exactly when its opcode is not reserved (30_encoding.md R55; the one spelling that is written
is the model's, log 17). -/
def Obligations.AssemblerTextReadsBack : Prop :=
  ∀ i : Instr, (i ∈ reservedInstrs → asmText i = none) ∧
    (i ∉ reservedInstrs → ∃ cs, asmText i = some cs ∧ readAsm cs = some i)

/-- The pseudo-instructions (30_encoding.md R56, derived by the spec): each expansion but `decrypt`'s runs
to its end from every state, with the result its row names; `decrypt`'s does so with `VALID = 0`, and with
`VALID = 1` where the store has R17's shape (log 12). For each of the four that begin with an `LDF`, the
`LDF` may be left out when `F` already holds `f`: the shorter sequence leaves the same block and the same
response; after reset `F` holds `DEFAULT_FEEDBACK`. -/
def Obligations.PseudoInstructionResults : Prop :=
  (∀ (s : State) (p : List Byte) (v f : Word), ∃ t,
    execAll (Pseudo.expand (.encrypt p v f)) s = .next t ∧
    t.lastResponse = some ⟨.ok, xorBytes (keystream v f p.length) p, keystream v f p.length⟩ ∧
    (s.block.f = f → ∃ u, exec (.enc v p) s = .next u ∧ u.block = t.block ∧
      u.lastResponse = t.lastResponse)) ∧
  (∀ (s : State) (c : List Byte) (v f : Word), ∃ t,
    execAll (Pseudo.expand (.decryptWithSeed c v f)) s = .next t ∧
    execAll (Pseudo.expand (.decryptSeeded c v f)) s = .next t ∧
    t.lastResponse = some ⟨.ok, xorBytes (keystream v f c.length) c, []⟩ ∧
    (s.block.f = f → ∃ u, exec (.decs v c) s = .next u ∧ u.block = t.block ∧
      u.lastResponse = t.lastResponse)) ∧
  (∀ (s : State) (c k : List Byte), ∃ t,
    execAll (Pseudo.expand (.decryptWithKeystream c k)) s = .next t ∧
    t.lastResponse = some (if k.length = c.length then ⟨.ok, xorBytes k c, []⟩
      else ⟨.lengthMismatch, [], []⟩)) ∧
  (∀ s : State, s.block.valid = false → ∃ t,
    execAll (Pseudo.expand .decrypt) s = .next t ∧
    t.lastResponse = some ⟨.noKeystreamAvailable, [], []⟩) ∧
  (∀ s : State, s.block.valid = true → s.block.storeWf → ∃ t,
    execAll (Pseudo.expand .decrypt) s = .next t ∧
    t.lastResponse = some
      ⟨.ok, xorBytes (Memory.bytes s.block.ks) (Memory.bytes s.block.cb), []⟩) ∧
  (∀ (s : State) (v f : Word), ∃ t,
    execAll (Pseudo.expand (.nextKeystreamByte v f)) s = .next t ∧
    t.lastResponse = some ⟨.ok, [], [(ksb v f).1]⟩ ∧ t.rq = (ksb v f).2 ∧
    (s.block.f = f → ∃ u, execAll [.seed v, .ksb] s = .next u ∧ u.block = t.block ∧
      u.lastResponse = t.lastResponse)) ∧
  (∀ (s : State) (v f : Word), ∃ t,
    execAll (Pseudo.expand (.stepRegister v f)) s = .next t ∧
    t.lastResponse = some ⟨.ok, [], []⟩ ∧ t.rq = Sys2Proof.Machine.stepRegister v f ∧
    (s.block.f = f → ∃ u, execAll [.seed v, .step] s = .next u ∧ u.block = t.block ∧
      u.lastResponse = t.lastResponse)) ∧
  (∀ c : Params, (State.resetWith c).block.f = c.defaultFeedback)

/-- R125: an `LDF g` inside a session is obeyed, and every later step uses the new value (D22).
`F` is `g` after every program with no other `LDF`. `STEP`s and `KSB`s after it, as many as there are, go
on from the state reached so far under `g`; an `ENC` and a `DECS` after it derive their keystream under `g`.
After `ENC s, p` and `LDF g`, `DECS` derives `keystream(s, g, N)` and answers what it decrypts to with
`err = OK`, a wrong plaintext in the spec's own case (95_test_vectors.md P4 line 7), while `DECK` and `DECR`
still answer `p`. -/
def Obligations.LdfInsideSessionIsObeyed : Prop :=
  (∀ (s t : State) (g : Word) (prog : List Instr), (∀ f, Instr.ldf f ∉ prog) →
    execAll (.ldf g :: prog) s = .next t → t.block.f = g) ∧
  (∀ (s : State) (g : Word) (m n : Nat), ∃ t,
    execAll (List.replicate m .step ++ .ldf g :: List.replicate n .step) s = .next t ∧
    t.block = { s.block with r := stepTimes n (stepTimes m s.block.r s.block.f) g, f := g }) ∧
  (∀ (s : State) (g : Word) (m n : Nat), ∃ t,
    execAll (List.replicate m .ksb ++ .ldf g :: List.replicate n .ksb) s = .next t ∧
    t.block = { s.block with r := finalState (finalState s.block.r s.block.f m) g n, f := g } ∧
    t.responses = s.responses ++ (keystream s.block.r s.block.f m).map (fun k => ⟨.ok, [], [k]⟩) ++
      [⟨.ok, [], []⟩] ++
      (keystream (finalState s.block.r s.block.f m) g n).map fun k => ⟨.ok, [], [k]⟩) ∧
  (∀ (s : State) (v g : Word) (p : List Byte), ∃ t,
    execAll [.ldf g, .enc v p] s = .next t ∧
    t.block =
      { r := finalState v g p.length, f := g, ks := Memory.ofBytes (keystream v g p.length),
        cb := Memory.ofBytes (xorBytes (keystream v g p.length) p), len := p.length, valid := true } ∧
    t.responses = s.responses ++
      [⟨.ok, [], []⟩, ⟨.ok, xorBytes (keystream v g p.length) p, keystream v g p.length⟩]) ∧
  (∀ (s : State) (v g : Word) (c : List Byte), ∃ t,
    execAll [.ldf g, .decs v c] s = .next t ∧
    t.block = { s.block with r := finalState v g c.length, f := g } ∧
    t.responses = s.responses ++
      [⟨.ok, [], []⟩, ⟨.ok, xorBytes (keystream v g c.length) c, []⟩]) ∧
  (∀ (s : State) (v g : Word) (p : List Byte), ∃ t c ks,
    execAll [.enc v p, .ldf g] s = .next t ∧
    t.responses = s.responses ++ [⟨.ok, c, ks⟩, ⟨.ok, [], []⟩] ∧ t.block.f = g ∧
    (∃ u, exec (.decs v c) t = .next u ∧ u.responses = t.responses ++
      [⟨.ok, xorBytes (keystream v g p.length)
        (xorBytes (keystream v s.block.f p.length) p), []⟩]) ∧
    (∃ u, exec (.deck c ks) t = .next u ∧ u.responses = t.responses ++ [⟨.ok, p, []⟩]) ∧
    (∃ u, exec .decr t = .next u ∧ u.responses = t.responses ++ [⟨.ok, p, []⟩])) ∧
  xorBytes (keystream 0x478e29a4#32 0x7fe00ae3#32 5) [0x48#8, 0x65#8, 0x6c#8, 0x6c#8, 0x6f#8] =
    [0x7b#8, 0x7b#8, 0xc9#8, 0xa8#8, 0xca#8] ∧
  xorBytes (keystream 0x478e29a4#32 0xedb88320#32 5) [0x7b#8, 0x7b#8, 0xc9#8, 0xa8#8, 0xca#8] =
    [0xa3#8, 0x74#8, 0xfe#8, 0x63#8, 0x60#8]

/-- `KSB`s issued after an `ENC` of `N` bytes with no `SEED` continue its keystream: they answer bytes
`N`, `N+1`, and so on of the same seed (70_reset_and_hazards.md R126; D13, log 8). -/
def Obligations.KsbAfterEncContinuesKeystream : Prop :=
  ∀ (s : State) (v : Word) (p : List Byte) (n : Nat), ∃ t u,
    exec (.enc v p) s = .next t ∧ execAll (List.replicate n .ksb) t = .next u ∧
    u.responses = t.responses ++
      ((keystream v s.block.f (p.length + n)).drop p.length).map fun k => ⟨.ok, [], [k]⟩

/-- `DECR` answers the plaintext of the latest `ENC` on the instance, whatever ran before that `ENC` and
whatever ran since that is no `ENC` (70_reset_and_hazards.md R127). -/
def Obligations.DecrAnswersLatestEnc : Prop :=
  ∀ (s t : State) (before after : List Instr) (v : Word) (p : List Byte),
    (∀ w q, Instr.enc w q ∉ after) →
    execAll (before ++ .enc v p :: after) s = .next t →
    exec .decr t = .next
      { block := t.block, pending := t.pending, responses := t.responses ++ [⟨.ok, p, []⟩] }

/-- Instances share nothing: whatever the schedule, each instance ends as it would after as many steps of
its own, alone (10_state.md R26, 60_exceptions.md R113; the schedule is the model's, log 16). -/
def Obligations.InstancesShareNothing : Prop :=
  ∀ (sched : List Nat) (sys sys' : Instances), Instances.run sched sys = .next sys' →
    sys'.length = sys.length ∧
    ∀ (k : Nat) (s : State), sys[k]? = some s → ∃ s', sys'[k]? = some s' ∧
      Host.Core.run Sys2Proof.core (sched.count k) s = .next s'
end

