-- ==== Sys2Proof/Laws/State.lean ====
section
/-! SUPPORT. One lemma per field per update of the state, so that no proof unfolds a record update. -/

namespace Sys2Proof.Machine


@[simp] theorem Block.loadR_r (b : Block) (v : Word) : (b.loadR v).r = v := rfl
@[simp] theorem Block.loadR_f (b : Block) (v : Word) : (b.loadR v).f = b.f := rfl
@[simp] theorem Block.loadR_ks (b : Block) (v : Word) : (b.loadR v).ks = b.ks := rfl
@[simp] theorem Block.loadR_cb (b : Block) (v : Word) : (b.loadR v).cb = b.cb := rfl
@[simp] theorem Block.loadR_len (b : Block) (v : Word) : (b.loadR v).len = b.len := rfl
@[simp] theorem Block.loadR_valid (b : Block) (v : Word) : (b.loadR v).valid = b.valid := rfl

@[simp] theorem Block.loadF_r (b : Block) (v : Word) : (b.loadF v).r = b.r := rfl
@[simp] theorem Block.loadF_f (b : Block) (v : Word) : (b.loadF v).f = v := rfl
@[simp] theorem Block.loadF_ks (b : Block) (v : Word) : (b.loadF v).ks = b.ks := rfl
@[simp] theorem Block.loadF_cb (b : Block) (v : Word) : (b.loadF v).cb = b.cb := rfl
@[simp] theorem Block.loadF_len (b : Block) (v : Word) : (b.loadF v).len = b.len := rfl
@[simp] theorem Block.loadF_valid (b : Block) (v : Word) : (b.loadF v).valid = b.valid := rfl

@[simp] theorem Block.clearStore_r (b : Block) : (b.clearStore).r = b.r := rfl
@[simp] theorem Block.clearStore_f (b : Block) : (b.clearStore).f = b.f := rfl
@[simp] theorem Block.clearStore_ks (b : Block) : (b.clearStore).ks = [] := rfl
@[simp] theorem Block.clearStore_cb (b : Block) : (b.clearStore).cb = [] := rfl
@[simp] theorem Block.clearStore_len (b : Block) : (b.clearStore).len = 0 := rfl
@[simp] theorem Block.clearStore_valid (b : Block) : (b.clearStore).valid = b.valid := rfl

@[simp] theorem Block.appendPair_r (b : Block) (k c : Byte) : (b.appendPair k c).r = b.r := rfl
@[simp] theorem Block.appendPair_f (b : Block) (k c : Byte) : (b.appendPair k c).f = b.f := rfl
@[simp] theorem Block.appendPair_ks (b : Block) (k c : Byte) : (b.appendPair k c).ks = Memory.write b.ks b.len k := rfl
@[simp] theorem Block.appendPair_cb (b : Block) (k c : Byte) : (b.appendPair k c).cb = Memory.write b.cb b.len c := rfl
@[simp] theorem Block.appendPair_len (b : Block) (k c : Byte) : (b.appendPair k c).len = b.len + 1 := rfl
@[simp] theorem Block.appendPair_valid (b : Block) (k c : Byte) : (b.appendPair k c).valid = b.valid := rfl

@[simp] theorem Block.setValid_r (b : Block) : (b.setValid).r = b.r := rfl
@[simp] theorem Block.setValid_f (b : Block) : (b.setValid).f = b.f := rfl
@[simp] theorem Block.setValid_ks (b : Block) : (b.setValid).ks = b.ks := rfl
@[simp] theorem Block.setValid_cb (b : Block) : (b.setValid).cb = b.cb := rfl
@[simp] theorem Block.setValid_len (b : Block) : (b.setValid).len = b.len := rfl
@[simp] theorem Block.setValid_valid (b : Block) : (b.setValid).valid = true := rfl

@[simp] theorem Block.hasRecord_eq (b : Block) : b.hasRecord = b.valid := rfl

@[simp] theorem Block.deriveByte_fst (b : Block) : b.deriveByte.1 = (ksb b.r b.f).1 := rfl
@[simp] theorem Block.deriveByte_snd (b : Block) : b.deriveByte.2 = b.loadR (ksb b.r b.f).2 := rfl

@[simp] theorem Block.reset_r (c : Params) : (Block.reset c).r = c.defaultSeed := rfl
@[simp] theorem Block.reset_f (c : Params) : (Block.reset c).f = c.defaultFeedback := rfl
@[simp] theorem Block.reset_ks (c : Params) : (Block.reset c).ks = [] := rfl
@[simp] theorem Block.reset_cb (c : Params) : (Block.reset c).cb = [] := rfl
@[simp] theorem Block.reset_len (c : Params) : (Block.reset c).len = 0 := rfl
@[simp] theorem Block.reset_valid (c : Params) : (Block.reset c).valid = false := rfl

@[simp] theorem State.finish_block (s : State) (b : Block) (resp : Response) : (s.finish b resp).block = b := rfl
@[simp] theorem State.finish_pending (s : State) (b : Block) (resp : Response) : (s.finish b resp).pending = s.pending := rfl
@[simp] theorem State.finish_responses (s : State) (b : Block) (resp : Response) : (s.finish b resp).responses = s.responses ++ [resp] := rfl

@[simp] theorem State.takeReset_block (s : State) (c : Params) : (s.takeReset c).block = Block.reset c := rfl
@[simp] theorem State.takeReset_pending (s : State) (c : Params) : (s.takeReset c).pending = s.pending := rfl
@[simp] theorem State.takeReset_responses (s : State) (c : Params) : (s.takeReset c).responses = s.responses := rfl

@[simp] theorem State.issueFirst_block (s : State) (c : Command) : (s.issueFirst c).block = s.block := rfl
@[simp] theorem State.issueFirst_pending (s : State) (c : Command) : (s.issueFirst c).pending = .command c :: s.pending := rfl
@[simp] theorem State.issueFirst_responses (s : State) (c : Command) : (s.issueFirst c).responses = s.responses := rfl

end Sys2Proof.Machine
end

