-- ==== Sys2Proof/Laws/Generator.lean ====
section
/-! SUPPORT. The laws of the pure functions of the generator (40_generator.md R60 to R69), said once. -/

namespace Sys2Proof.Machine

@[simp] theorem stepTimes_zero (s f : Word) : stepTimes 0 s f = s := rfl

theorem stepTimes_succ (n : Nat) (s f : Word) :
    stepTimes (n + 1) s f = stepTimes n (stepRegister s f) f := rfl

/-- Steps compose (R64's threading). -/
theorem stepTimes_add (m n : Nat) (s f : Word) :
    stepTimes (m + n) s f = stepTimes n (stepTimes m s f) f := by
  induction m generalizing s with
  | zero => rw [Nat.zero_add, stepTimes_zero]
  | succ m ih => rw [Nat.succ_add, stepTimes_succ, stepTimes_succ, ih]

theorem ksb_snd (s f : Word) : (ksb s f).2 = stepTimes 8 s f := rfl

/-- The byte is the low byte of the state after the eighth step. -/
theorem ksb_fst (s f : Word) : (ksb s f).1 = lowByte (stepTimes 8 s f) := rfl

@[simp] theorem keystream_zero (s f : Word) : keystream s f 0 = [] := rfl

theorem keystream_succ (s f : Word) (n : Nat) :
    keystream s f (n + 1) = (ksb s f).1 :: keystream (ksb s f).2 f n := rfl

@[simp] theorem keystream_length (s f : Word) (n : Nat) : (keystream s f n).length = n := by
  induction n generalizing s with
  | zero => rfl
  | succ n ih => rw [keystream_succ, List.length_cons, ih]

@[simp] theorem finalState_zero (s f : Word) : finalState s f 0 = s := rfl

/-- One more byte is eight more steps, taken first. -/
theorem finalState_succ (s f : Word) (n : Nat) :
    finalState s f (n + 1) = finalState (ksb s f).2 f n := by
  rw [finalState, finalState, ksb_snd, ← stepTimes_add, Config.stepsPerByte]
  congr 1
  omega

/-! The XOR of two sequences. -/

@[simp] theorem xorBytes_nil_left (xs : List Byte) : xorBytes [] xs = [] := by
  cases xs <;> rfl

@[simp] theorem xorBytes_nil_right (ks : List Byte) : xorBytes ks [] = [] := by
  cases ks <;> rfl

@[simp] theorem xorBytes_cons (k x : Byte) (ks xs : List Byte) :
    xorBytes (k :: ks) (x :: xs) = (k ^^^ x) :: xorBytes ks xs := rfl

theorem xorBytes_length (ks xs : List Byte) :
    (xorBytes ks xs).length = min ks.length xs.length := by
  induction ks generalizing xs with
  | nil => simp
  | cons k ks ih =>
    cases xs with
    | nil => simp
    | cons x xs => simp [ih]

/-- XOR is its own inverse (R84). -/
theorem xorBytes_self_inverse (ks xs : List Byte) (h : ks.length = xs.length) :
    xorBytes ks (xorBytes ks xs) = xs := by
  induction ks generalizing xs with
  | nil => rw [xorBytes_nil_left]; exact (List.length_eq_zero_iff.1 h.symm).symm
  | cons k ks ih =>
    cases xs with
    | nil => simp
    | cons x xs => simp [ih xs (by simpa using h)]

theorem xorBytes_getElem? (ks xs : List Byte) (i : Nat) (k x : Byte)
    (hk : ks[i]? = some k) (hx : xs[i]? = some x) : (xorBytes ks xs)[i]? = some (k ^^^ x) := by
  induction ks generalizing xs i with
  | nil => simp at hk
  | cons a ks ih =>
    cases xs with
    | nil => simp at hx
    | cons b xs =>
      cases i with
      | zero => simp_all
      | succ i => simpa using ih xs i (by simpa using hk) (by simpa using hx)

end Sys2Proof.Machine
end

