-- ==== Sys2Proof/Laws/Memory.lean ====
section
/-! SUPPORT. The laws of the store spaces: a read after a write, the canonical form kept by every
operation, the append, and a space as a byte sequence (20_memory.md R30, R31). -/

namespace Sys2Proof.Machine

@[simp] theorem Memory.read_nil (i : Nat) : Memory.read [] i = none := rfl

@[simp] theorem Memory.addresses_nil : Memory.addresses [] = [] := rfl

@[simp] theorem Memory.addresses_cons (c : Host.Cell) (m : Memory) :
    Memory.addresses (c :: m) = c.1 :: Memory.addresses m := rfl

@[simp] theorem Memory.bytes_cons (c : Host.Cell) (m : Memory) :
    Memory.bytes (c :: m) = c.2 :: Memory.bytes m := rfl

theorem Memory.wf_nil : Memory.wf [] := List.Pairwise.nil

/-- A cell that does not exist has no value. -/
theorem Memory.read_eq_none_iff (m : Memory) (i : Nat) :
    Memory.read m i = none ↔ i ∉ Memory.addresses m := by
  induction m with
  | nil => simp
  | cons c m ih => by_cases h : i = c.1 <;> simp [Memory.read, h, ih]

theorem Memory.read_write_same (m : Memory) (i : Nat) (v : Byte) :
    Memory.read (Memory.write m i v) i = some v := by
  induction m with
  | nil => simp [Memory.write, Memory.read]
  | cons c m ih =>
    simp only [Memory.write]
    split
    · simp [Memory.read]
    · split
      · simp [Memory.read]
      · rename_i h; simp [Memory.read, h, ih]

theorem Memory.read_write_other (m : Memory) (i j : Nat) (v : Byte) (h : j ≠ i) :
    Memory.read (Memory.write m i v) j = Memory.read m j := by
  induction m with
  | nil => simp [Memory.write, Memory.read, h]
  | cons c m ih =>
    simp only [Memory.write]
    split
    · simp [Memory.read, h]
    · split
      · rename_i hk; simp [Memory.read, h, ← hk]
      · simp [Memory.read, ih]

theorem Memory.mem_addresses_write (m : Memory) (i j : Nat) (v : Byte) :
    j ∈ Memory.addresses (Memory.write m i v) ↔ j = i ∨ j ∈ Memory.addresses m := by
  induction m with
  | nil => simp [Memory.write]
  | cons c m ih =>
    simp only [Memory.write]
    split
    · simp
    · split
      · rename_i hk; simp [← hk]
      · simp only [Memory.addresses_cons, List.mem_cons, ih]; tauto

/-- The one operation that changes a space keeps its canonical form. -/
theorem Memory.write_wf (m : Memory) (i : Nat) (v : Byte) (h : Memory.wf m) :
    Memory.wf (Memory.write m i v) := by
  induction m with
  | nil => simp [Memory.write, Memory.wf]
  | cons c m ih =>
    simp only [Memory.wf, Memory.addresses_cons, List.pairwise_cons] at h
    simp only [Memory.write]
    split
    · rename_i hi
      simp only [Memory.wf, Memory.addresses_cons, List.pairwise_cons, List.mem_cons]
      refine ⟨?_, h⟩
      rintro a (rfl | ha)
      · exact hi
      · exact lt_trans hi (h.1 a ha)
    · split
      · rename_i hk
        subst hk
        simpa [Memory.wf] using h
      · simp only [Memory.wf, Memory.addresses_cons, List.pairwise_cons]
        refine ⟨?_, ih h.2⟩
        intro a ha
        rcases (Memory.mem_addresses_write m i a v).1 ha with rfl | ha
        · omega
        · exact h.1 a ha

/-- A write past every cell is an append at the end of the list. -/
theorem Memory.write_append (m : Memory) (i : Nat) (v : Byte)
    (h : ∀ a ∈ Memory.addresses m, a < i) : Memory.write m i v = m ++ [(i, v)] := by
  induction m with
  | nil => rfl
  | cons c m ih =>
    have hc : c.1 < i := h c.1 (by simp)
    have hm : ∀ a ∈ Memory.addresses m, a < i := fun a ha => h a (by simp [ha])
    have h1 : ¬ i < c.1 := by omega
    have h2 : ¬ i = c.1 := by omega
    simp [Memory.write, h1, h2, ih hm]

/-! A space that holds a byte sequence. -/

@[simp] theorem Memory.ofBytesFrom_length (i : Nat) (bs : List Byte) :
    (Memory.ofBytesFrom i bs).length = bs.length := by
  induction bs generalizing i with
  | nil => rfl
  | cons b bs ih => simp [Memory.ofBytesFrom, ih]

@[simp] theorem Memory.bytes_ofBytesFrom (i : Nat) (bs : List Byte) :
    Memory.bytes (Memory.ofBytesFrom i bs) = bs := by
  induction bs generalizing i with
  | nil => rfl
  | cons b bs ih => simp [Memory.ofBytesFrom, ih]

@[simp] theorem Memory.bytes_ofBytes (bs : List Byte) :
    Memory.bytes (Memory.ofBytes bs) = bs := Memory.bytes_ofBytesFrom 0 bs

@[simp] theorem Memory.ofBytes_nil : Memory.ofBytes [] = [] := rfl

theorem Memory.addresses_ofBytesFrom (i : Nat) (bs : List Byte) :
    Memory.addresses (Memory.ofBytesFrom i bs) = List.range' i bs.length := by
  induction bs generalizing i with
  | nil => rfl
  | cons b bs ih => simp [Memory.ofBytesFrom, ih, List.range'_succ]

theorem Memory.addresses_ofBytes (bs : List Byte) :
    Memory.addresses (Memory.ofBytes bs) = List.range bs.length := by
  rw [Memory.ofBytes, Memory.addresses_ofBytesFrom, List.range_eq_range']

theorem Memory.ofBytes_wf (bs : List Byte) : Memory.wf (Memory.ofBytes bs) := by
  rw [Memory.wf, Memory.addresses_ofBytes]
  exact List.pairwise_lt_range

theorem Memory.ofBytesFrom_append (i : Nat) (bs cs : List Byte) :
    Memory.ofBytesFrom i (bs ++ cs) =
      Memory.ofBytesFrom i bs ++ Memory.ofBytesFrom (i + bs.length) cs := by
  induction bs generalizing i with
  | nil => rfl
  | cons b bs ih => simp [Memory.ofBytesFrom, ih, Nat.add_assoc, Nat.add_comm 1]

/-- The append of R31 on a space that holds a byte sequence. -/
theorem Memory.write_ofBytes (bs : List Byte) (v : Byte) :
    Memory.write (Memory.ofBytes bs) bs.length v = Memory.ofBytes (bs ++ [v]) := by
  rw [Memory.write_append]
  · simp [Memory.ofBytes, Memory.ofBytesFrom_append, Memory.ofBytesFrom]
  · intro a ha
    rw [Memory.addresses_ofBytes, List.mem_range] at ha
    exact ha

theorem Memory.read_ofBytesFrom (j i : Nat) (bs : List Byte) :
    Memory.read (Memory.ofBytesFrom j bs) (j + i) = bs[i]? := by
  induction bs generalizing j i with
  | nil => simp [Memory.ofBytesFrom]
  | cons b bs ih =>
    cases i with
    | zero => simp [Memory.ofBytesFrom, Memory.read]
    | succ i =>
      have h := ih (j + 1) i
      rw [show j + 1 + i = j + (i + 1) by omega] at h
      simp [Memory.ofBytesFrom, Memory.read, h]

/-- Element `i` of the sequence is the cell at index `i` (R13, R14). -/
theorem Memory.read_ofBytes (bs : List Byte) (i : Nat) :
    Memory.read (Memory.ofBytes bs) i = bs[i]? := by
  have h := Memory.read_ofBytesFrom 0 i bs
  rwa [Nat.zero_add] at h

/-- A space whose cells are exactly `0 <= i < n` is the sequence of its bytes. -/
theorem Memory.eq_ofBytesFrom (m : Memory) (i n : Nat)
    (h : Memory.addresses m = List.range' i n) :
    m = Memory.ofBytesFrom i (Memory.bytes m) := by
  induction m generalizing i n with
  | nil => rfl
  | cons c m ih =>
    cases n with
    | zero => simp at h
    | succ n =>
      rw [List.range'_succ, Memory.addresses_cons, List.cons.injEq] at h
      have hm := ih (i + 1) n h.2
      rw [Memory.bytes_cons, Memory.ofBytesFrom, ← hm, ← h.1]

theorem Memory.eq_ofBytes (m : Memory) (n : Nat) (h : Memory.addresses m = List.range n) :
    m = Memory.ofBytes (Memory.bytes m) :=
  Memory.eq_ofBytesFrom m 0 n (by rw [h, List.range_eq_range'])

end Sys2Proof.Machine
end

