-- ==== Sys2Proof/Laws/Driver.lean ====
section
/-! SUPPORT. One lemma for each loop of the driver: everything the loop leaves, in the terms of
`keystream`, `final_state` and the XOR of sequences (41_cipher_driver.md R80 to R83). -/

namespace Sys2Proof.Machine

/-- A block whose store holds the sequences `ks` and `cb`, of one length (R17). -/
structure Block.Holds (b : Block) (ks cb : List Byte) : Prop where
  ks_eq : b.ks = Memory.ofBytes ks
  cb_eq : b.cb = Memory.ofBytes cb
  ks_len : ks.length = b.len
  cb_len : cb.length = b.len

theorem Block.clearStore_holds (b : Block) : b.clearStore.Holds [] [] := ⟨rfl, rfl, rfl, rfl⟩

/-- An append grows both sequences by one element (R31). -/
theorem Block.appendPair_holds (b : Block) (ks cb : List Byte) (k c : Byte) (h : b.Holds ks cb) :
    (b.appendPair k c).Holds (ks ++ [k]) (cb ++ [c]) where
  ks_eq := by rw [appendPair_ks, h.ks_eq, ← h.ks_len, Memory.write_ofBytes]
  cb_eq := by rw [appendPair_cb, h.cb_eq, ← h.cb_len, Memory.write_ofBytes]
  ks_len := by simp [h.ks_len]
  cb_len := by simp [h.cb_len]

/-- What the loop of `ENC` leaves. -/
structure EncLoopSpec (p : List Byte) (b : Block) (ks cb : List Byte) (out : Pass) : Prop where
  r_eq : out.block.r = finalState b.r b.f p.length
  f_eq : out.block.f = b.f
  valid_eq : out.block.valid = b.valid
  len_eq : out.block.len = b.len + p.length
  holds : out.block.Holds (ks ++ keystream b.r b.f p.length)
    (cb ++ xorBytes (keystream b.r b.f p.length) p)
  dout_eq : out.dout = xorBytes (keystream b.r b.f p.length) p
  kout_eq : out.kout = keystream b.r b.f p.length

theorem encLoop_spec (p : List Byte) (b : Block) (ks cb : List Byte) (h : b.Holds ks cb) :
    EncLoopSpec p b ks cb (encLoop p b) := by
  induction p generalizing b ks cb with
  | nil => exact ⟨rfl, rfl, rfl, rfl, by simpa [encLoop] using h, rfl, rfl⟩
  | cons x xs ih =>
    have hb : (b.loadR (ksb b.r b.f).2).Holds ks cb := ⟨h.ks_eq, h.cb_eq, h.ks_len, h.cb_len⟩
    have rest := ih _ _ _ (Block.appendPair_holds _ _ _ (ksb b.r b.f).1 ((ksb b.r b.f).1 ^^^ x) hb)
    refine ⟨?_, ?_, ?_, ?_, ?_, ?_, ?_⟩
    · simpa [encLoop, finalState_succ] using rest.r_eq
    · simpa [encLoop] using rest.f_eq
    · simpa [encLoop] using rest.valid_eq
    · have := rest.len_eq
      simp only [encLoop, Block.deriveByte_fst, Block.deriveByte_snd, Block.appendPair_len,
        Block.loadR_len, List.length_cons] at this ⊢
      omega
    · simpa [encLoop, keystream_succ] using rest.holds
    · simpa [encLoop, keystream_succ] using rest.dout_eq
    · simpa [encLoop, keystream_succ] using rest.kout_eq

/-- The loop of `DECS` writes `R` only and emits the XOR of the keystream with its operand. -/
theorem decsLoop_eq (c : List Byte) (b : Block) :
    decsLoop c b = ⟨b.loadR (finalState b.r b.f c.length),
      xorBytes (keystream b.r b.f c.length) c, []⟩ := by
  induction c generalizing b with
  | nil => rfl
  | cons x xs ih =>
    simp only [decsLoop, Block.deriveByte_fst, Block.deriveByte_snd, ih]
    simp [keystream_succ, finalState_succ, Block.loadR]

/-- `DECR` over a store that holds two sequences of one length reads all of both. -/
theorem combineStored_from (ks cb ka ca : List Byte) (hk : ks.length = cb.length)
    (ha : ka.length = ca.length) :
    combineStored (Memory.ofBytes (ka ++ ks)) (Memory.ofBytes (ca ++ cb)) ks.length ka.length =
      .ok (xorBytes ks cb) := by
  induction ks generalizing cb ka ca with
  | nil => simp [combineStored]
  | cons k ks ih =>
    cases cb with
    | nil => simp at hk
    | cons c cb =>
      have rest := ih cb (ka ++ [k]) (ca ++ [c]) (by simpa using hk) (by simp [ha])
      simp only [List.append_assoc, List.singleton_append, List.length_append, List.length_cons,
        List.length_nil, Nat.zero_add] at rest
      have hc : (ca ++ c :: cb)[ka.length]? = some c := by simp [ha]
      simp only [List.length_cons, combineStored, Memory.read_ofBytes, hc]
      simp [rest]

/-- `DECR`'s reads, on a block whose store holds two sequences. -/
theorem combineStored_holds (b : Block) (ks cb : List Byte) (h : b.Holds ks cb) :
    combineStored b.ks b.cb b.len 0 = .ok (xorBytes ks cb) := by
  have := combineStored_from ks cb [] [] (by rw [h.ks_len, h.cb_len]) rfl
  simpa [h.ks_eq, h.cb_eq, ← h.ks_len] using this

end Sys2Proof.Machine
end

