-- ==== Sys2Proof/Laws/PerInstr.lean ====
section
/-! SUPPORT. The encoding of every command, constructor by constructor: the opcode bits of its canonical
word are its row's `match` value, and its `arg` bits are its 32-bit operand (30_encoding.md R47, R49, R50). -/

namespace Sys2Proof.Laws

/-- A 32-bit operand leaves the opcode bits of a command word alone. -/
theorem arg_and_opcodeMask (a : Word) : a.setWidth 36 &&& opcodeMask = 0#36 := by
  apply BitVec.eq_of_getLsbD_eq
  intro i hi
  by_cases h : i < 32
  · have : opcodeMask.getLsbD i = false := by
      revert i; decide
    simp [this]
  · simp [BitVec.getLsbD_of_ge a i (by omega)]

/-- Where a word's `arg` bits are 0, the operand put into them is read back whole. -/
theorem argField_or_arg (m : CmdWord) (a : Word) (hm : argField m = 0#32) :
    argField (m ||| a.setWidth 36) = a := by
  apply BitVec.eq_of_getLsbD_eq
  intro i hi
  have h := congrArg (fun v => BitVec.getLsbD v i) hm
  simp [argField, hi] at h ⊢
  simp [h]
  omega

namespace Encoding

/-- What the family says of one command. -/
def Statement (i : Instr) : Prop :=
  (encode i).cmd &&& opcodeMask = i.matchWord ∧ argField (encode i).cmd = i.arg

/-- Every command's canonical word, from what its `match` value holds. -/
theorem of_matchWord (i : Instr) (hm : i.matchWord &&& opcodeMask = i.matchWord)
    (ha : argField i.matchWord = 0#32) : Statement i := by
  refine ⟨?_, argField_or_arg _ _ ha⟩
  apply BitVec.eq_of_getLsbD_eq
  intro n hn
  have h1 := congrArg (fun v => BitVec.getLsbD v n) (arg_and_opcodeMask i.arg)
  have h2 := congrArg (fun v => BitVec.getLsbD v n) hm
  simp only [encode, BitVec.getLsbD_and, BitVec.getLsbD_or, BitVec.getLsbD_zero] at h1 h2 ⊢
  rw [Bool.and_or_distrib_right, h1, h2, Bool.or_false]

theorem ldf (f : Word) : Statement (.ldf f) := of_matchWord _ (by simp only [Instr.matchWord]; decide) (by simp only [Instr.matchWord]; decide)
theorem seed (s : Word) : Statement (.seed s) := of_matchWord _ (by simp only [Instr.matchWord]; decide) (by simp only [Instr.matchWord]; decide)
theorem step : Statement .step := of_matchWord _ (by decide) (by decide)
theorem ksb : Statement .ksb := of_matchWord _ (by decide) (by decide)
theorem enc (s : Word) (p : List Byte) : Statement (.enc s p) := of_matchWord _ (by simp only [Instr.matchWord]; decide) (by simp only [Instr.matchWord]; decide)
theorem decs (s : Word) (c : List Byte) : Statement (.decs s c) := of_matchWord _ (by simp only [Instr.matchWord]; decide) (by simp only [Instr.matchWord]; decide)
theorem deck (c k : List Byte) : Statement (.deck c k) := of_matchWord _ (by simp only [Instr.matchWord]; decide) (by simp only [Instr.matchWord]; decide)
theorem decr : Statement .decr := of_matchWord _ (by decide) (by decide)
theorem reserved0 : Statement .reserved0 := of_matchWord _ (by decide) (by decide)
theorem reserved9 : Statement .reserved9 := of_matchWord _ (by decide) (by decide)
theorem reservedA : Statement .reservedA := of_matchWord _ (by decide) (by decide)
theorem reservedB : Statement .reservedB := of_matchWord _ (by decide) (by decide)
theorem reservedC : Statement .reservedC := of_matchWord _ (by decide) (by decide)
theorem reservedD : Statement .reservedD := of_matchWord _ (by decide) (by decide)
theorem reservedE : Statement .reservedE := of_matchWord _ (by decide) (by decide)
theorem reservedF : Statement .reservedF := of_matchWord _ (by decide) (by decide)

end Encoding

end Sys2Proof.Laws
end

