-- ==== Sys2Proof/Laws/Step.lean ====
section
/-! SUPPORT. What a command and a step can do, said once: the arms of `exec`, the form of every next
state, and the cases of a step. -/

namespace Sys2Proof.Machine

/-- `raise` (60_exceptions.md R103): the response and nothing else. -/
theorem raise_eq (e : Err) (s : State) : raise e s = .next (s.finish s.block ⟨e, [], []⟩) := rfl

@[simp] theorem exec_ldf (f : Word) (s : State) :
    exec (.ldf f) s = .next (s.finish (s.block.loadF f) ⟨.ok, [], []⟩) := rfl

@[simp] theorem exec_seed (v : Word) (s : State) :
    exec (.seed v) s = .next (s.finish (s.block.loadR v) ⟨.ok, [], []⟩) := rfl

@[simp] theorem exec_step (s : State) : exec .step s =
    .next (s.finish (s.block.loadR (stepRegister s.block.r s.block.f)) ⟨.ok, [], []⟩) := rfl

@[simp] theorem exec_ksb (s : State) : exec .ksb s =
    .next (s.finish (s.block.loadR (ksb s.block.r s.block.f).2)
      ⟨.ok, [], [(ksb s.block.r s.block.f).1]⟩) := rfl

/-- The meanings of the eight reserved opcodes are one error. -/
theorem exec_reserved (i : Instr) (s : State)
    (h : i = .reserved0 ∨ i = .reserved9 ∨ i = .reservedA ∨ i = .reservedB ∨ i = .reservedC ∨
      i = .reservedD ∨ i = .reservedE ∨ i = .reservedF) :
    exec i s = raise .illegalCommand s := by
  rcases h with rfl | rfl | rfl | rfl | rfl | rfl | rfl | rfl <;> rfl

/-- A next state is the old one with some block and one more response: a command leaves the host's
queue alone and gives exactly one response (30_encoding.md R45). -/
theorem exec_next_eq_finish (i : Instr) (s t : State) (h : exec i s = .next t) :
    ∃ resp, t = s.finish t.block resp := by
  cases i with
  | deck c k =>
    simp only [exec, execDeck, raise] at h
    split at h <;> (cases h; exact ⟨_, rfl⟩)
  | decr =>
    simp only [exec, execDecr, raise] at h
    split at h
    · split at h <;> cases h
      exact ⟨_, rfl⟩
    · cases h; exact ⟨_, rfl⟩
  | _ => cases h; exact ⟨_, rfl⟩

/-- No command is refused by its meaning. -/
theorem exec_ne_refused (i : Instr) (s : State) (r : Refusal) : exec i s ≠ .refused r := by
  intro h
  cases i with
  | deck c k =>
    simp only [exec, execDeck, raise] at h
    split at h <;> cases h
  | decr =>
    simp only [exec, execDecr, raise] at h
    split at h
    · split at h <;> cases h
    · cases h
  | _ => cases h

/-- The one fault: `DECR` meets a store cell that does not exist. -/
theorem exec_fault_cases (i : Instr) (s : State) (r : Fault) (h : exec i s = .fault r) :
    i = .decr ∧ s.block.valid = true ∧
      combineStored s.block.ks s.block.cb s.block.len 0 = .error r := by
  cases i with
  | deck c k =>
    simp only [exec, execDeck, raise] at h
    split at h <;> cases h
  | decr =>
    simp only [exec, execDecr, raise] at h
    split at h
    · split at h
      · cases h
      · cases h; exact ⟨rfl, ‹_›, ‹_›⟩
    · cases h
  | _ => cases h

/-- The cases of a step: nothing queued, a reset, or one well-formed command. -/
theorem stepWith_next_cases (c : Params) (s t : State) (h : stepWith c s = .next t) :
    (s.pending = [] ∧ t = s) ∨
    (∃ rest, s.pending = .reset :: rest ∧
      t = State.takeReset c { s with pending := rest }) ∨
    (∃ cmd rest, s.pending = .command cmd :: rest ∧ (decode cmd).wellFormed c = true ∧
      exec (decode cmd) { s with pending := rest } = .next t) := by
  unfold stepWith State.take at h
  split at h
  · rename_i ht
    split at ht <;> cases ht
    cases h; exact .inl ⟨‹_›, rfl⟩
  · rename_i ht
    split at ht <;> cases ht
    cases h; exact .inr (.inl ⟨_, ‹_›, rfl⟩)
  · rename_i ht
    split at ht <;> cases ht
    split at h
    · cases h
    · rename_i hw
      exact .inr (.inr ⟨_, _, ‹_›, by simp [Instr.wellFormed, hw], h⟩)

/-- With the default parameters of R4 every command is well formed. -/
theorem wellFormed_default (i : Instr) : i.wellFormed Config.params = true := by
  cases i <;> rfl

/-! A run of the machine, step by step. -/

theorem core_run_next (n : Nat) (s t : State) (h : step s = .next t) :
    Host.Core.run Sys2Proof.core (n + 1) s = Host.Core.run Sys2Proof.core n t := by
  have h' : Sys2Proof.core.step s = .next t := h
  exact (Host.Core.run.eq_2 Sys2Proof.core s n).trans (by rw [h'])

theorem core_run_fault (n : Nat) (s : State) (r : Fault) (h : step s = .fault r) :
    Host.Core.run Sys2Proof.core (n + 1) s = .fault r := by
  have h' : Sys2Proof.core.step s = .fault r := h
  exact (Host.Core.run.eq_2 Sys2Proof.core s n).trans (by rw [h'])

theorem core_run_refused (n : Nat) (s : State) (r : Refusal) (h : step s = .refused r) :
    Host.Core.run Sys2Proof.core (n + 1) s = .refused r := by
  have h' : Sys2Proof.core.step s = .refused r := h
  exact (Host.Core.run.eq_2 Sys2Proof.core s n).trans (by rw [h'])

end Sys2Proof.Machine
end

