-- ==== Sys2Proof/Laws/Program.lean ====
section
/-! SUPPORT. What executing a program can do, said once: command by command, and in two parts. -/

namespace Sys2Proof.Machine

@[simp] theorem execAll_nil (s : State) : execAll [] s = .next s := rfl

theorem execAll_cons_next (i : Instr) (prog : List Instr) (s t : State) (h : exec i s = .next t) :
    execAll (i :: prog) s = execAll prog t := by simp only [execAll, h]

/-- A program that ran to its end ran its first command to its end, and the rest from there. -/
theorem execAll_cons_cases (i : Instr) (prog : List Instr) (s t : State)
    (h : execAll (i :: prog) s = .next t) :
    ∃ u, exec i s = .next u ∧ execAll prog u = .next t := by
  cases hi : exec i s <;> simp only [execAll, hi] at h
  · exact ⟨_, rfl, h⟩
  all_goals cases h

/-- A program whose first part runs to its end goes on with its second part from there. -/
theorem execAll_append_next (a b : List Instr) (s t : State) (h : execAll a s = .next t) :
    execAll (a ++ b) s = execAll b t := by
  induction a generalizing s with
  | nil => cases h; rfl
  | cons i a ih =>
    obtain ⟨u, hi, hu⟩ := execAll_cons_cases i a s t h
    rw [List.cons_append, execAll_cons_next i (a ++ b) s u hi, ih u hu]

end Sys2Proof.Machine
end

