-- ==== Sys2Proof/Tests/Slice0.lean ====
section
/-! SUPPORT. Tests on fixed values. Every expected value is the spec's: the encodings of 30_encoding.md R47
and R49, the vectors and programs of 95_test_vectors.md, the worked examples of the rules. After them, for
every statement with hypotheses, a concrete case that meets all of them (`witness_<statement>`). -/

namespace Sys2Proof.Tests

open Sys2Proof Sys2Proof.Machine

/-- The next state, where there is one. -/
def nextOf (o : Host.Outcome State Fault Refusal) : Option State :=
  match o with
  | .next t => some t
  | .fault _ => none
  | .refused _ => none

/-- The refusal, where there is one. -/
def refusalOf (o : Host.Outcome State Fault Refusal) : Option Refusal :=
  match o with
  | .refused r => some r
  | .next _ => none
  | .fault _ => none

/-- The fault, where there is one. -/
def faultOf (o : Host.Outcome State Fault Refusal) : Option Fault :=
  match o with
  | .fault r => some r
  | .next _ => none
  | .refused _ => none

/-- The last response and `R`, `F` after a command. -/
def seen (o : Host.Outcome State Fault Refusal) : Option (Option Response × Word × Word) :=
  (nextOf o).map fun t => (t.lastResponse, t.block.r, t.block.f)

/-- The store after a command: the bytes of `KS` and `CB`, `LEN`, `VALID`. -/
def store (o : Host.Outcome State Fault Refusal) : Option (List Byte × List Byte × Nat × Bool) :=
  (nextOf o).map fun t =>
    (Memory.bytes t.block.ks, Memory.bytes t.block.cb, t.block.len, t.block.valid)

/-- An instance with given `R` and `F` and nothing recorded. -/
def inst (r f : Word) : State := ⟨⟨r, f, [], [], 0, false⟩, [], []⟩

/-- An instance with the record of `ENC 0x478e29a4, "A"` (95_test_vectors.md P4 line 1). -/
def instA : State := ⟨⟨0x7ba68433#32, 0x7fe00ae3#32, [(0, 0x33#8)], [(0, 0x72#8)], 1, true⟩, [], []⟩

/-! Decoding: a word of every row, written out from R47 and R49. -/

theorem test_decode_ldf_bits :
    decode ⟨0b0001_01111111111000000000101011100011#36, [], []⟩ = .ldf 0x7fe00ae3#32 := by decide

theorem test_decode_seed : decode ⟨0x2478e29a4#36, [], []⟩ = .seed 0x478e29a4#32 := by decide

theorem test_decode_step_bits :
    decode ⟨0b0011_11111111111111111111111111111111#36, [], []⟩ = .step := by decide

theorem test_decode_ksb : decode ⟨0x400000000#36, [], []⟩ = .ksb := by decide

theorem test_decode_enc_bits :
    decode ⟨0b0101_01000111100011100010100110100100#36, [0x41#8], []⟩ =
      .enc 0x478e29a4#32 [0x41#8] := by decide

theorem test_decode_decs :
    decode ⟨0x6deadbeef#36, [0x1f#8, 0x6c#8], []⟩ = .decs 0xdeadbeef#32 [0x1f#8, 0x6c#8] := by decide

theorem test_decode_deck :
    decode ⟨0x700000000#36, [0x72#8], [0x33#8]⟩ = .deck [0x72#8] [0x33#8] := by decide

theorem test_decode_decr : decode ⟨0x800000000#36, [0x01#8], [0x02#8]⟩ = .decr := by decide

theorem test_decode_reserved_bits :
    decode ⟨0b1001_00000000000000000000000000000000#36, [], []⟩ = .reserved9 := by decide

theorem test_decode_reserved :
    [0x000000000#36, 0x900000000#36, 0xA00000000#36, 0xB00000000#36, 0xC00000000#36,
      0xD00000000#36, 0xE00000000#36, 0xf12345678#36].map (fun w => decode ⟨w, [], []⟩) =
    [.reserved0, .reserved9, .reservedA, .reservedB, .reservedC, .reservedD, .reservedE,
      .reservedF] := by decide

theorem test_decode_table_word : decodeTableWord 40 0x17fe00ae3 = some (.ldf 0x7fe00ae3#32) := by
  decide

theorem test_decode_table_word_too_wide : decodeTableWord 40 0x1000000000 = none := by decide

theorem test_encode_enc :
    encode (.enc 0x478e29a4#32 [0x41#8]) = ⟨0x5478e29a4#36, [0x41#8], []⟩ := by decide

theorem test_encode_decr : encode .decr = ⟨0x800000000#36, [], []⟩ := by decide

/-! WellFormed: one ill-formed command for each check, refused, and its neighbour, accepted. -/

/-- Parameters with a store of two pairs. -/
def depth2 : Params := { Config.params with storeDepth := some 2 }

/-- Parameters with 2-bit lengths. -/
def bits2 : Params := { Config.params with lenBits := some 2 }

theorem test_wf_store_too_small :
    (Instr.enc 0#32 [1#8, 2#8, 3#8]).illFormed depth2 = some .storeTooSmall ∧
      (Instr.enc 0#32 [1#8, 2#8]).wellFormed depth2 = true := by decide

theorem test_wf_enc_length_too_wide :
    (Instr.enc 0#32 [1#8, 2#8, 3#8, 4#8]).illFormed bits2 = some .lengthTooWide ∧
      (Instr.enc 0#32 [1#8, 2#8, 3#8]).wellFormed bits2 = true := by decide

theorem test_wf_decs_length_too_wide :
    (Instr.decs 0#32 [1#8, 2#8, 3#8, 4#8]).illFormed bits2 = some .lengthTooWide ∧
      (Instr.decs 0#32 [1#8, 2#8, 3#8]).wellFormed bits2 = true := by decide

theorem test_wf_deck_length_too_wide :
    (Instr.deck [] [1#8, 2#8, 3#8, 4#8]).illFormed bits2 = some .lengthTooWide ∧
      (Instr.deck [1#8] [2#8, 3#8]).wellFormed bits2 = true := by decide

/-! The pure functions (95_test_vectors.md 2.1, 2.2, 2.3). -/

theorem test_step_function :
    [(0x00000000#32, 0x7fe00ae3#32), (0x00000001#32, 0x7fe00ae3#32), (0x80000000#32, 0x7fe00ae3#32),
      (0x80000001#32, 0x7fe00ae3#32), (0xfffffffe#32, 0x7fe00ae3#32), (0xffffffff#32, 0x7fe00ae3#32),
      (0xffffffff#32, 0xffffffff#32), (0xffffffff#32, 0x00000000#32), (0x00000003#32, 0x80000000#32),
      (0xdeadbeef#32, 0xedb88320#32), (0xb84e3c63#32, 0x7fe00ae3#32)].map
        (fun p => stepRegister p.1 p.2) =
    [0x00000000#32, 0x7fe00ae3#32, 0x40000000#32, 0x3fe00ae3#32, 0x7fffffff#32, 0x001ff51c#32,
      0x80000000#32, 0x7fffffff#32, 0x80000001#32, 0x82ee5c57#32, 0x23c714d2#32] := by decide

theorem test_unstep : unstepRegister 0x82ee5c57#32 0xedb88320#32 = 0xdeadbeef#32 := by decide

theorem test_ksb_function :
    [(0x00000001#32, 0x7fe00ae3#32), (0x000000ff#32, 0x7fe00ae3#32), (0x12345678#32, 0x00000000#32),
      (0xffffffff#32, 0xffffffff#32), (0xdeadbeef#32, 0xedb88320#32)].map (fun p => ksb p.1 p.2) =
    [(0xcc#8, 0x090241cc#32), (0xbb#8, 0x0701c0bb#32), (0x56#8, 0x00123456#32),
      (0x00#8, 0x01000000#32), (0x57#8, 0x306b5257#32)] := by decide

theorem test_keystream :
    keystream 0xdeadbeef#32 0xedb88320#32 5 = [0x57#8, 0x05#8, 0x20#8, 0x03#8, 0x05#8] ∧
      finalState 0xdeadbeef#32 0xedb88320#32 5 = 0x99324f05#32 := by decide +kernel

/-! One command each (95_test_vectors.md 2.4 to 2.8 and part 3). -/

/-- P3 line 2. -/
theorem test_ldf : seen (exec (.ldf 0xedb88320#32) (inst 0x478e29a4#32 0x7fe00ae3#32)) =
    some (some ⟨.ok, [], []⟩, 0x478e29a4#32, 0xedb88320#32) := by decide

/-- P2 line 1. -/
theorem test_seed : seen (exec (.seed 0x478e29a4#32) (inst 0x00000005#32 0x7fe00ae3#32)) =
    some (some ⟨.ok, [], []⟩, 0x478e29a4#32, 0x7fe00ae3#32) := by decide

/-- P2 line 2: the multiplexer passes the shifted value. -/
theorem test_step_even : seen (exec .step (inst 0x478e29a4#32 0x7fe00ae3#32)) =
    some (some ⟨.ok, [], []⟩, 0x23c714d2#32, 0x7fe00ae3#32) := by decide

/-- P2 line 4: the multiplexer passes the XOR. -/
theorem test_step_odd : seen (exec .step (inst 0x11e38a69#32 0x7fe00ae3#32)) =
    some (some ⟨.ok, [], []⟩, 0x7711cfd7#32, 0x7fe00ae3#32) := by decide

/-- P2 line 10. -/
theorem test_ksb : seen (exec .ksb (inst 0x7ba68433#32 0x7fe00ae3#32)) =
    some (some ⟨.ok, [], [0x1e#8]⟩, 0x54916a1e#32, 0x7fe00ae3#32) := by decide

/-- P1 line 1, on an instance that already holds a record. -/
theorem test_enc_hello :
    let o := exec (.enc 0x478e29a4#32 [0x48#8, 0x65#8, 0x6c#8, 0x6c#8, 0x6f#8]) instA
    seen o = some (some ⟨.ok, [0x7b#8, 0x7b#8, 0xc9#8, 0xa8#8, 0xca#8],
      [0x33#8, 0x1e#8, 0xa5#8, 0xc4#8, 0xa5#8]⟩, 0x1b8bf0a5#32, 0x7fe00ae3#32) ∧
    store o = some ([0x33#8, 0x1e#8, 0xa5#8, 0xc4#8, 0xa5#8],
      [0x7b#8, 0x7b#8, 0xc9#8, 0xa8#8, 0xca#8], 5, true) := by decide +kernel

/-- P3 line 7: the empty sequence replaces the record, loads `R`, sets `VALID`. -/
theorem test_enc_empty :
    let o := exec (.enc 0x00000000#32 []) instA
    seen o = some (some ⟨.ok, [], []⟩, 0x00000000#32, 0x7fe00ae3#32) ∧
    store o = some ([], [], 0, true) := by decide

/-- 2.5, third row; the store is as it was. -/
theorem test_decs :
    let o := exec (.decs 0xdeadbeef#32 [0x1f#8, 0x6c#8])
      { instA with block := { instA.block with f := 0xedb88320#32 } }
    seen o = some (some ⟨.ok, [0x48#8, 0x69#8], []⟩, 0xf53faf05#32, 0xedb88320#32) ∧
    store o = some ([0x33#8], [0x72#8], 1, true) := by decide +kernel

/-- 2.6, second row. -/
theorem test_deck : seen (exec (.deck [0x7b#8, 0x7b#8, 0xc9#8, 0xa8#8, 0xca#8]
      [0x33#8, 0x1e#8, 0xa5#8, 0xc4#8, 0xa5#8]) (inst 1#32 2#32)) =
    some (some ⟨.ok, [0x48#8, 0x65#8, 0x6c#8, 0x6c#8, 0x6f#8], []⟩, 1#32, 2#32) := by decide

/-- 2.6, sixth row. -/
theorem test_deck_mismatch : seen (exec (.deck [] [0x33#8]) (inst 1#32 2#32)) =
    some (some ⟨.lengthMismatch, [], []⟩, 1#32, 2#32) := by decide

/-- 2.7, second row; the record stays. -/
theorem test_decr :
    seen (exec .decr instA) = some (some ⟨.ok, [0x41#8], []⟩, 0x7ba68433#32, 0x7fe00ae3#32) ∧
      store (exec .decr instA) = some ([0x33#8], [0x72#8], 1, true) := by decide

/-- 2.7, first row: straight after reset. -/
theorem test_decr_after_reset : seen (exec .decr State.reset) =
    some (some ⟨.noKeystreamAvailable, [], []⟩, 0x478e29a4#32, 0x7fe00ae3#32) := by decide

/-- 2.8: every reserved opcode, and the block is as it was. -/
theorem test_reserved : ∀ i ∈ reservedInstrs, nextOf (exec i instA) =
    some { instA with responses := [⟨.illegalCommand, [], []⟩] } := by decide

/-! Steps and ports. -/

theorem test_step_runs_placed_word :
    seen (Machine.step (State.reset.withFetchWord 36 0x300000000)) =
      some (some ⟨.ok, [], []⟩, 0x23c714d2#32, 0x7fe00ae3#32) := by decide

theorem test_step_takes_reset :
    nextOf (Machine.step { instA with pending := [.reset, .command ⟨0x300000000#36, [], []⟩] }) =
      some { State.reset with pending := [.command ⟨0x300000000#36, [], []⟩] } := by decide

theorem test_step_refuses_beyond_store_depth :
    refusalOf (stepWith depth2 { State.reset with
      pending := [.command ⟨0x500000000#36, [1#8, 2#8, 3#8], []⟩] }) =
      some (.illFormed .storeTooSmall) := by decide

theorem test_err_codes :
    [Err.ok, .lengthMismatch, .noKeystreamAvailable, .illegalCommand].map Err.code =
      [0#2, 1#2, 2#2, 3#2] := by decide

/-- 30_encoding.md R55's first and fifth lines, and a `DECK`. -/
theorem test_asm_text :
    asmText (.ldf 0x7fe00ae3#32) =
      some ['L', 'D', 'F', ' ', '0', 'x', '7', 'f', 'e', '0', '0', 'a', 'e', '3'] ∧
    asmText (.enc 0x478e29a4#32 [0x41#8]) =
      some (['E', 'N', 'C', ' ', '0', 'x', '4', '7', '8', 'e', '2', '9', 'a', '4'] ++
        [',', ' ', '[', '0', 'x', '4', '1', ']']) ∧
    asmText (.deck [0x72#8, 0x5c#8] [0x33#8]) =
      some (['D', 'E', 'C', 'K', ' ', '[', '0', 'x', '7', '2', ',', ' ', '0', 'x', '5', 'c', ']'] ++
        [',', ' ', '[', '0', 'x', '3', '3', ']']) ∧
    asmText .reservedA = none := by decide +kernel

/-- R55's sixth, eighth and ninth lines, and a line with an operand too many. -/
theorem test_asm_read :
    readAsm (['E', 'N', 'C', ' ', ' ', '0', 'x', '4', '7', '8', 'e', '2', '9', 'a', '4', ',', ' '] ++
      [quoteChar, 'H', 'e', 'l', 'l', 'o', quoteChar]) =
      some (.enc 0x478e29a4#32 [0x48#8, 0x65#8, 0x6c#8, 0x6c#8, 0x6f#8]) ∧
    readAsm ['D', 'E', 'C', 'K', ' ', '[', '0', 'x', '7', '2', ']', ',', ' ', '[', '0', 'x', '3', '3',
      ']'] = some (.deck [0x72#8] [0x33#8]) ∧
    readAsm ['D', 'E', 'C', 'R'] = some .decr ∧
    readAsm ['D', 'E', 'C', 'R', ' ', '0', 'x', '1'] = none := by decide +kernel

/-- Instance 1 steps, instance 0 does not. -/
theorem test_instances :
    (match Instances.step [instA, { instA with pending := [.reset] }] 1 with
      | .next sys => some sys
      | .fault _ => none
      | .refused _ => none) = some [instA, { State.reset with pending := [] }] := by decide

/-! Witnesses: a concrete case that meets all the hypotheses of a statement together. -/

/-- R49: each mask value is met by a word. -/
theorem witness_OpcodeMapSelectsCommand :
    [0x0fedcba98#36, 0x17fe00ae3#36, 0x2478e29a4#36, 0x3ffffffff#36, 0x400000001#36, 0x5deadbeef#36,
      0x600000000#36, 0x7ffffffff#36, 0x800000001#36, 0x900000000#36, 0xA00000001#36, 0xB00000000#36,
      0xC00000001#36, 0xD00000000#36, 0xE00000001#36, 0xf12345678#36].map (· &&& 0xF00000000#36) =
    [0x000000000#36, 0x100000000#36, 0x200000000#36, 0x300000000#36, 0x400000000#36, 0x500000000#36,
      0x600000000#36, 0x700000000#36, 0x800000000#36, 0x900000000#36, 0xA00000000#36, 0xB00000000#36,
      0xC00000000#36, 0xD00000000#36, 0xE00000000#36, 0xF00000000#36] := by decide

theorem witness_EncodeOfDecodeOnCanonicalCommands :
    let c : Command := ⟨0x800000000#36, [], []⟩
    (usesArg (opField c.cmd) = false ∧ argField c.cmd = 0#32) ∧
      (samplesDin (opField c.cmd) = false ∧ c.din = []) ∧
      (samplesKin (opField c.cmd) = false ∧ c.kin = []) := by decide

theorem witness_UnusedFieldsHaveNoEffect :
    opField 0x300000000#36 ∈ [3#4, 4#4, 7#4, 8#4] ∧
      opField 0x3ffffffff#36 = opField 0x300000000#36 ∧
      opField 0x300000000#36 ∈ [1#4, 2#4, 3#4, 4#4, 8#4] ∧ opField 0x300000000#36 ≠ 7#4 := by decide

theorem witness_StepRunsTheIssuedCommand :
    (State.reset.withFetchWord 36 0x800000000).pending = .command ⟨0x800000000#36, [], []⟩ :: [] ∧
      (decode ⟨0x800000000#36, [], []⟩).wellFormed depth2 = true := by decide

theorem witness_PlacedTableWordRunsNext : 36 ≤ 40 ∧ 0xfffffffff < 2 ^ 36 := by decide

theorem witness_ResetEventSetsEveryElement :
    ({ instA with pending := [.reset] } : State).pending = .reset :: [] := by decide

theorem witness_IdleInstanceHoldsItsState : instA.pending = [] := by decide

/-- Both clauses at the boundary: two bytes fit, three do not. -/
theorem witness_FiniteStoreRefusesLongerEnc :
    depth2.storeDepth = some 2 ∧ depth2.lenBits = none ∧
      (State.reset.issueFirst ⟨0x500000000#36, [1#8, 2#8, 3#8], []⟩).pending =
        .command ⟨0x500000000#36, [1#8, 2#8, 3#8], []⟩ :: [] ∧
      decode ⟨0x500000000#36, [1#8, 2#8, 3#8], []⟩ = .enc 0#32 [1#8, 2#8, 3#8] ∧
      2 < [1#8, 2#8, 3#8].length ∧
      decode ⟨0x500000000#36, [1#8, 2#8], []⟩ = .enc 0#32 [1#8, 2#8] ∧
      [1#8, 2#8].length ≤ 2 := by decide

theorem witness_StepFunctionTwoCases :
    (0x11e38a69#32).getLsbD 0 = true ∧ (0x478e29a4#32).getLsbD 0 = false := by decide

theorem witness_StepFunctionBitByBit : 30 ≤ 30 ∧ 0 ≤ 30 := by decide

theorem witness_StepInverseAndCollisions :
    (0xedb88320#32).getLsbD 31 = true ∧ (0x7fe00ae3#32).getLsbD 31 = false ∧
      (0x23c714d2#32).getLsbD 31 = false := by decide

theorem witness_KeystreamElementsFromSteps : 15 < 16 := by decide

theorem witness_KeystreamPrefixLaw : 8 ≤ 8 ∧ 0 ≤ 8 := by decide

/-- Both clauses: equal lengths (the empty ones too), and lengths one apart. -/
theorem witness_DeckCombinesEqualLengths :
    ([] : List Byte).length = ([] : List Byte).length ∧ [0x33#8].length = [0x72#8].length ∧
      [0x33#8].length ≠ [0x72#8, 0x5c#8].length ∧ [0x33#8].length ≠ ([] : List Byte).length := by
  decide

/-- Both clauses: `VALID = 0`, and `VALID = 1` with a store of R17's shape (an empty one too). -/
theorem witness_DecrCombinesTheRecord :
    State.reset.block.valid = false ∧ (instA.block.valid = true ∧ instA.block.storeWf) ∧
      (⟨0#32, 0#32, [], [], 0, true⟩ : Block).storeWf := by decide

/-- A state no run reaches, in which `DECR` faults. -/
theorem witness_FaultOnlyOnAbsentStoreCell :
    faultOf (exec .decr { instA with block := { instA.block with len := 2 } }) =
      some (.storeCellAbsent .ks 1) := by decide

theorem witness_ReservedOpcodesRaiseIllegalCommand :
    Instr.reservedB ∈ [Instr.reserved0, .reserved9, .reservedA, .reservedB, .reservedC, .reservedD,
      .reservedE, .reservedF] := by decide

/-- Another state with the same `F`, and a program with no `ENC` that runs to its end from the state an
`ENC` leaves. -/
theorem witness_RoundTripByAllStrategies :
    (inst 9#32 0x7fe00ae3#32).block.f = State.reset.block.f ∧
      (∀ w q, Instr.enc w q ∉ [Instr.step, .ldf 5#32, .decr]) ∧
      (nextOf (exec (.enc 0x478e29a4#32 [0x41#8]) State.reset)).map
        (fun t => (nextOf (execAll [.step, .ldf 5#32, .decr] t)).isSome) = some true :=
  ⟨by decide, by simp, by decide⟩

theorem witness_DecryptStrategiesAgree :
    (∀ w q, Instr.enc w q ∉ [Instr.step, .decr]) ∧ (∀ f, Instr.ldf f ∉ [Instr.step, .decr]) :=
  ⟨by simp, by simp⟩

theorem witness_EncDependsOnOperandsAndFeedbackOnly :
    instA.block.f = (inst 9#32 0x7fe00ae3#32).block.f ∧ instA ≠ inst 9#32 0x7fe00ae3#32 := by decide

theorem witness_EncAndDecsAreOneFunction : [0x41#8, 0x42#8][1]? = some 0x42#8 := by decide

theorem witness_SensitivityIsNotALaw : instA.block.f = 0x7fe00ae3#32 := by decide

theorem witness_OutputElementFromOwnInput :
    [0x41#8][0]? = some 0x41#8 ∧
      (keystream 0x478e29a4#32 0x7fe00ae3#32 1)[0]? = some 0x33#8 ∧
      [0x33#8].length = [0x72#8].length ∧ [0x72#8][0]? = some 0x72#8 ∧ [0x33#8][0]? = some 0x33#8 := by
  decide

theorem witness_OneResponseOfTheTabledLengths :
    (nextOf (exec (.deck [] [0x33#8]) instA)).isSome = true ∧
      (nextOf (exec .decr instA)).isSome = true := by decide

theorem witness_EachErrorHasItsOneCause :
    (nextOf (exec .decr State.reset)).map State.responses =
      some (State.reset.responses ++ [⟨.noKeystreamAvailable, [], []⟩]) := by decide

theorem witness_RaisingCommandsChangeNoState :
    (nextOf (exec (.deck [] [0x33#8]) instA)).map State.responses =
      some (instA.responses ++ [⟨.lengthMismatch, [], []⟩]) ∧ Err.lengthMismatch ≠ .ok := by decide

theorem witness_AccessTableWrites :
    (nextOf (exec .ksb instA)).isSome = true ∧ Element.ks ∉ elementsWritten .ksb := by decide

/-- Two states that agree on what `DECR` reads and differ in `R` and `F`. -/
theorem witness_AccessTableReads :
    (∀ e ∈ elementsRead .decr, e.agree instA.block
      { instA.block with r := 1#32, f := 2#32 }) ∧
      (nextOf (exec .decr instA)).isSome = true :=
  ⟨by simp [elementsRead, Element.agree], by decide⟩

theorem witness_StoreBytesAfterEachCommand :
    (nextOf (exec .decr instA)).isSome = true ∧ (∀ v p, Instr.decr ≠ .enc v p) ∧
      [0x41#8][0]? = some 0x41#8 ∧ [0x41#8].length ≤ 1 :=
  ⟨by decide, by simp, by decide, by decide⟩

/-- A state with a record that meets the invariant, from which a step goes on. -/
theorem witness_StepKeepsStoreInvariant :
    ({ instA with pending := [.command ⟨0x400000000#36, [], []⟩] } : State).Inv ∧
      (nextOf (stepWith depth2
        { instA with pending := [.command ⟨0x400000000#36, [], []⟩] })).isSome = true :=
  ⟨⟨by decide, fun _ => ⟨0x478e29a4#32, 0x7fe00ae3#32, [0x41#8], by decide, by decide, by decide⟩⟩,
    by decide⟩

theorem witness_InstancesWithInvariantRunForever : instA.Inv :=
  ⟨by decide, fun _ => ⟨0x478e29a4#32, 0x7fe00ae3#32, [0x41#8], by decide, by decide, by decide⟩⟩

theorem witness_ValidTellsOfEncSinceReset :
    (nextOf (Host.Core.run Sys2Proof.core 2 { instA with
      pending := [.reset, .command ⟨0x500000000#36, [], []⟩] })).map (fun t => t.block.valid) =
        some true ∧ State.reset.block.valid = false := by decide

theorem witness_IssuedProgramRunsInOrder : instA.pending = [] := by decide

/-- Both clauses: a reserved opcode, and a command with both kinds of operands. -/
theorem witness_AssemblerTextReadsBack :
    Instr.reservedF ∈ reservedInstrs ∧ Instr.enc 1#32 [2#8, 3#8] ∉ reservedInstrs := by decide

/-- Each clause: `F` already holds the constant; nothing is recorded; a record, an empty one too, of R17's
shape. -/
theorem witness_PseudoInstructionResults :
    instA.block.f = 0x7fe00ae3#32 ∧ State.reset.block.valid = false ∧
      (instA.block.valid = true ∧ instA.block.storeWf) ∧
      (⟨0#32, 0#32, [], [], 0, true⟩ : Block).storeWf := by decide

/-- A program with no other `LDF` that runs to its end after one. -/
theorem witness_LdfInsideSessionIsObeyed :
    (∀ f, Instr.ldf f ∉ [Instr.ksb, .enc 1#32 [0x42#8], .decr]) ∧
      (nextOf (execAll (.ldf 5#32 :: [.ksb, .enc 1#32 [0x42#8], .decr]) instA)).isSome = true :=
  ⟨by simp, by decide⟩

/-- P4 lines 1 to 3: the later `ENC` wins. -/
theorem witness_DecrAnswersLatestEnc :
    (∀ w q, Instr.enc w q ∉ [Instr.ksb]) ∧
      (nextOf (execAll ([.enc 0x478e29a4#32 [0x41#8]] ++ .enc 1#32 [0x42#8] :: [.ksb])
        State.reset)).isSome = true :=
  ⟨by simp, by decide⟩

theorem witness_InstancesShareNothing :
    (match Instances.run [1, 0, 1] [instA, instA] with
      | .next sys => some sys
      | .fault _ => none
      | .refused _ => none) = some [instA, instA] := by decide

end Sys2Proof.Tests
end

/-! PROOFS, the state of an instance. What a command does to the block and what it answers, each said
once as a function of the block (`blockAfter`, `answer`) and tied to `exec`; from them the
store's invariant, the access table, the meaning of `VALID`, and the independence of instances. -/

namespace Sys2Proof.Machine

/-! What a command leaves and what it answers. -/

/-- The block `ENC v, p` leaves (41_cipher_driver.md R80). -/
def Block.recordSession (b : Block) (v : Word) (p : List Byte) : Block where
  r := finalState v b.f p.length
  f := b.f
  ks := Memory.ofBytes (keystream v b.f p.length)
  cb := Memory.ofBytes (xorBytes (keystream v b.f p.length) p)
  len := p.length
  valid := true

/-- The block a command leaves, where it ends with a response. -/
def blockAfter : Instr → Block → Block
  | .ldf f, b => b.loadF f
  | .seed v, b => b.loadR v
  | .step, b => b.loadR (stepRegister b.r b.f)
  | .ksb, b => b.loadR (ksb b.r b.f).2
  | .enc v p, b => b.recordSession v p
  | .decs v c, b => b.loadR (finalState v b.f c.length)
  | .deck _ _, b | .decr, b => b
  | .reserved0, b | .reserved9, b | .reservedA, b | .reservedB, b => b
  | .reservedC, b | .reservedD, b | .reservedE, b | .reservedF, b => b

/-- The response a command gives, or the fault of a `DECR` that meets an absent cell. -/
def answer : Instr → Block → Except Fault Response
  | .ldf _, _ | .seed _, _ | .step, _ => .ok ⟨.ok, [], []⟩
  | .ksb, b => .ok ⟨.ok, [], [(ksb b.r b.f).1]⟩
  | .enc v p, b =>
    .ok ⟨.ok, xorBytes (keystream v b.f p.length) p, keystream v b.f p.length⟩
  | .decs v c, b => .ok ⟨.ok, xorBytes (keystream v b.f c.length) c, []⟩
  | .deck c k, _ =>
    .ok (if k.length = c.length then ⟨.ok, xorBytes k c, []⟩ else ⟨.lengthMismatch, [], []⟩)
  | .decr, b =>
    if b.valid then (combineStored b.ks b.cb b.len 0).map fun out => ⟨.ok, out, []⟩
    else .ok ⟨.noKeystreamAvailable, [], []⟩
  | .reserved0, _ | .reserved9, _ | .reservedA, _ | .reservedB, _ =>
    .ok ⟨.illegalCommand, [], []⟩
  | .reservedC, _ | .reservedD, _ | .reservedE, _ | .reservedF, _ =>
    .ok ⟨.illegalCommand, [], []⟩

theorem encLoop_setValid_eq (v : Word) (p : List Byte) (b : Block) :
    (encLoop p (b.loadR v).clearStore).block.setValid = b.recordSession v p := by
  obtain ⟨hr, hf, -, hlen, ⟨hks, hcb, -, -⟩, -, -⟩ :=
    encLoop_spec p (b.loadR v).clearStore [] [] (Block.clearStore_holds _)
  simp only [Block.setValid, Block.recordSession, hr, hf, hlen, hks, hcb]
  simp

theorem exec_enc (v : Word) (p : List Byte) (s : State) : exec (.enc v p) s =
    .next (s.finish (s.block.recordSession v p)
      ⟨.ok, xorBytes (keystream v s.block.f p.length) p, keystream v s.block.f p.length⟩) := by
  have spec := encLoop_spec p (s.block.loadR v).clearStore [] [] (Block.clearStore_holds _)
  simp [exec, execEnc, encLoop_setValid_eq, spec.dout_eq, spec.kout_eq]

theorem exec_decs (v : Word) (c : List Byte) (s : State) : exec (.decs v c) s =
    .next (s.finish (s.block.loadR (finalState v s.block.f c.length))
      ⟨.ok, xorBytes (keystream v s.block.f c.length) c, []⟩) := by
  simp [exec, execDecs, decsLoop_eq, Block.loadR]

theorem exec_deck (c k : List Byte) (s : State) : exec (.deck c k) s =
    .next (s.finish s.block
      (if k.length = c.length then ⟨.ok, xorBytes k c, []⟩ else ⟨.lengthMismatch, [], []⟩)) := by
  by_cases h : k.length = c.length <;> simp [exec, execDeck, lengthsMatch, raise, h]

/-- `DECR` is its answer, with the block as it was. -/
theorem exec_decr (s : State) : exec .decr s =
    match answer .decr s.block with
    | .ok resp => .next (s.finish s.block resp)
    | .error e => .fault e := by
  cases hv : s.block.valid with
  | false => simp [exec, execDecr, raise, answer, hv]
  | true =>
    cases hc : combineStored s.block.ks s.block.cb s.block.len 0 <;>
      simp [exec, execDecr, answer, Except.map, hv, hc]

theorem exec_of_answer_ok {i : Instr} {s : State} {resp : Response}
    (h : answer i s.block = .ok resp) :
    exec i s = .next (s.finish (blockAfter i s.block) resp) := by
  cases i with
  | enc v p => cases h; exact exec_enc v p s
  | decs v c => cases h; exact exec_decs v c s
  | deck c k => cases h; exact exec_deck c k s
  | decr => rw [exec_decr, h]; rfl
  | _ => cases h; rfl

theorem exec_of_answer_error {i : Instr} {s : State} {e : Fault}
    (h : answer i s.block = .error e) : exec i s = .fault e := by
  cases i with
  | decr => rw [exec_decr, h]
  | _ => cases h

/-- A command that ends leaves `blockAfter` and gives its `answer`. -/
theorem exec_next_cases {i : Instr} {s t : State} (h : exec i s = .next t) :
    ∃ resp, answer i s.block = .ok resp ∧ t = s.finish (blockAfter i s.block) resp := by
  cases ha : answer i s.block with
  | ok resp => rw [exec_of_answer_ok ha] at h; cases h; exact ⟨resp, rfl, rfl⟩
  | error e => rw [exec_of_answer_error ha] at h; cases h

theorem answer_of_exec_fault {i : Instr} {s : State} {e : Fault} (h : exec i s = .fault e) :
    answer i s.block = .error e := by
  cases ha : answer i s.block with
  | ok resp => rw [exec_of_answer_ok ha] at h; cases h
  | error e' => rw [exec_of_answer_error ha] at h; cases h; rfl

/-! The access table (10_state.md R22). -/

theorem Element.agree_refl (e : Element) (b : Block) : e.agree b b := by
  cases e <;> rfl

theorem Block.loadR_agree (b : Block) (v : Word) {e : Element} (he : e ≠ .r) :
    e.agree (b.loadR v) b := by
  cases e with
  | r => exact absurd rfl he
  | _ => rfl

theorem Block.loadF_agree (b : Block) (v : Word) {e : Element} (he : e ≠ .f) :
    e.agree (b.loadF v) b := by
  cases e with
  | f => exact absurd rfl he
  | _ => rfl

/-- The write columns: what a command does not write it leaves. -/
theorem blockAfter_agree_of_not_written (i : Instr) (b : Block) (e : Element)
    (he : e ∉ elementsWritten i) : e.agree (blockAfter i b) b := by
  cases i with
  | ldf f => exact b.loadF_agree f (by simpa [elementsWritten] using he)
  | seed | step | ksb | decs => exact b.loadR_agree _ (by simpa [elementsWritten] using he)
  | enc v p =>
    cases e with
    | f => rfl
    | _ => simp [elementsWritten] at he
  | _ => exact e.agree_refl b

/-- The read columns, for the block: what a command writes comes from what it reads. -/
theorem blockAfter_agree_of_read_agree (i : Instr) (b b' : Block)
    (hr : ∀ e ∈ elementsRead i, e.agree b b') (e : Element) (he : e ∈ elementsWritten i) :
    e.agree (blockAfter i b) (blockAfter i b') := by
  cases i with
  | ldf f =>
    obtain rfl : e = .f := by simpa [elementsWritten] using he
    rfl
  | seed v =>
    obtain rfl : e = .r := by simpa [elementsWritten] using he
    rfl
  | step | ksb =>
    obtain rfl : e = .r := by simpa [elementsWritten] using he
    have hR : b.r = b'.r := hr .r (by simp [elementsRead])
    have hF : b.f = b'.f := hr .f (by simp [elementsRead])
    simp [Element.agree, blockAfter, hR, hF]
  | decs v c =>
    obtain rfl : e = .r := by simpa [elementsWritten] using he
    have hF : b.f = b'.f := hr .f (by simp [elementsRead])
    simp [Element.agree, blockAfter, hF]
  | enc v p =>
    have hF : b.f = b'.f := hr .f (by simp [elementsRead])
    have hall : blockAfter (.enc v p) b = blockAfter (.enc v p) b' := by
      simp [blockAfter, Block.recordSession, hF]
    rw [hall]
    exact e.agree_refl _
  | _ => simp [elementsWritten] at he

/-- The read columns, for the response. -/
theorem answer_eq_of_read_agree (i : Instr) (b b' : Block)
    (hr : ∀ e ∈ elementsRead i, e.agree b b') : answer i b = answer i b' := by
  cases i with
  | ksb =>
    have hR : b.r = b'.r := hr .r (by simp [elementsRead])
    have hF : b.f = b'.f := hr .f (by simp [elementsRead])
    simp [answer, hR, hF]
  | enc | decs =>
    have hF : b.f = b'.f := hr .f (by simp [elementsRead])
    simp [answer, hF]
  | decr =>
    have hks : b.ks = b'.ks := hr .ks (by simp [elementsRead])
    have hcb : b.cb = b'.cb := hr .cb (by simp [elementsRead])
    have hlen : b.len = b'.len := hr .len (by simp [elementsRead])
    have hvalid : b.valid = b'.valid := hr .valid (by simp [elementsRead])
    simp [answer, hks, hcb, hlen, hvalid]
  | _ => rfl

/-- Settles O40: the write columns of the access table, on the block a command leaves. -/
theorem accessTableWrites : Obligations.AccessTableWrites := by
  intro i s t h
  obtain ⟨resp, -, rfl⟩ := exec_next_cases h
  exact ⟨rfl, blockAfter_agree_of_not_written i s.block⟩

/-- Settles O41: from agreeing reads come equal answers and agreeing writes. -/
theorem accessTableReads : Obligations.AccessTableReads := by
  intro i s s' hr
  have hans := answer_eq_of_read_agree i s.block s'.block hr
  refine ⟨fun t h => ?_, fun e h => ?_⟩
  · obtain ⟨resp, ha, rfl⟩ := exec_next_cases h
    exact ⟨_, resp, exec_of_answer_ok (hans ▸ ha), rfl, rfl,
      blockAfter_agree_of_read_agree i s.block s'.block hr⟩
  · exact exec_of_answer_error (hans ▸ answer_of_exec_fault h)

/-! The invariant of the store (10_state.md R17). -/

/-- Both halves of the invariant speak of the block's store and `VALID` only. -/
theorem State.Inv.of_store_eq {s t : State} (h : s.Inv) (hks : t.block.ks = s.block.ks)
    (hcb : t.block.cb = s.block.cb) (hlen : t.block.len = s.block.len)
    (hvalid : t.block.valid = s.block.valid) : t.Inv := by
  obtain ⟨shape, record⟩ := h
  constructor
  · simpa only [Block.storeWf, hks, hcb, hlen, hvalid] using shape
  · simpa only [Block.storeRecordsSession, hks, hcb, hlen, hvalid] using record

/-- A block with nothing recorded meets the invariant. -/
theorem State.inv_of_reset_block {s : State} {c : Params} (h : s.block = Block.reset c) : s.Inv := by
  constructor
  · simp [Block.storeWf, h]
  · simp [Block.storeRecordsSession, h]

/-- A session that `ENC` has just recorded meets the invariant, whatever the store held before. -/
theorem State.inv_of_recordSession {s : State} {b : Block} {v : Word} {p : List Byte}
    (h : s.block = b.recordSession v p) : s.Inv := by
  constructor
  · simp [Block.storeWf, h, Block.recordSession, Memory.addresses_ofBytes, xorBytes_length]
  · rw [h]
    exact fun _ => ⟨v, b.f, p, rfl, rfl, rfl⟩

/-- `ENC` alone writes the store, and it records a whole session. -/
theorem exec_keeps_inv {i : Instr} {s t : State} (hs : s.Inv) (h : exec i s = .next t) : t.Inv := by
  obtain ⟨resp, -, rfl⟩ := exec_next_cases h
  cases i with
  | enc v p => exact State.inv_of_recordSession rfl
  | _ => exact hs.of_store_eq rfl rfl rfl rfl

/-- Settles O44: an idle step changes nothing, a reset empties the store, a command keeps it or records
a session. -/
theorem stepKeepsStoreInvariant : Obligations.StepKeepsStoreInvariant := by
  intro c s t hs h
  obtain ⟨-, rfl⟩ | ⟨rest, -, rfl⟩ | ⟨cmd, rest, -, -, hexec⟩ := stepWith_next_cases c s t h
  · exact hs
  · exact State.inv_of_reset_block rfl
  · have htaken : State.Inv { s with pending := rest } := hs.of_store_eq rfl rfl rfl rfl
    exact exec_keeps_inv htaken hexec

/-- Settles O43: the reset block has nothing recorded. -/
theorem resetStateMeetsInvariant : Obligations.ResetStateMeetsInvariant :=
  fun _ => State.inv_of_reset_block rfl

/-- Settles O9: both reset blocks are `Block.reset` of their parameters. -/
theorem resetValuesOfTheSixElements : Obligations.ResetValuesOfTheSixElements :=
  ⟨fun _ => rfl, rfl⟩

/-! The meaning of `VALID` (10_state.md R16). -/

/-- A run that goes on took its first step, and the rest from there. -/
theorem core_run_succ_cases {n : Nat} {s t : State}
    (h : Host.Core.run Sys2Proof.core (n + 1) s = .next t) :
    ∃ u, step s = .next u ∧ Host.Core.run Sys2Proof.core n u = .next t := by
  cases hs : step s with
  | next u => exact ⟨u, rfl, core_run_next n s u hs ▸ h⟩
  | fault r => cases (core_run_fault n s r hs).symm.trans h
  | refused r => cases (core_run_refused n s r hs).symm.trans h

theorem encSinceReset_cons (before : Bool) (ev : Event) (evs : List Event) :
    encSinceReset before (ev :: evs) = encSinceReset (encSinceReset before [ev]) evs := by
  cases ev with
  | reset => rfl
  | command c => cases hc : decode c <;> simp [encSinceReset, hc]

/-- `VALID` after a command is what the history of that one command says. -/
theorem blockAfter_valid (c : Command) (b : Block) :
    (blockAfter (decode c) b).valid = encSinceReset b.valid [.command c] := by
  cases hc : decode c <;> simp [encSinceReset, hc, blockAfter, Block.recordSession]

/-- A step takes the first event off the queue, and `VALID` follows the history by that event. -/
theorem step_takes_event {s u : State} {ev : Event} {rest : List Event}
    (hp : s.pending = ev :: rest) (h : step s = .next u) :
    u.pending = rest ∧ u.block.valid = encSinceReset s.block.valid [ev] := by
  obtain ⟨hnil, -⟩ | ⟨rest', hreset, rfl⟩ | ⟨cmd, rest', hcmd, -, hexec⟩ :=
    stepWith_next_cases Config.params s u h
  · cases hnil.symm.trans hp
  · cases hreset.symm.trans hp
    exact ⟨rfl, rfl⟩
  · cases hcmd.symm.trans hp
    obtain ⟨resp, -, rfl⟩ := exec_next_cases hexec
    exact ⟨rfl, blockAfter_valid cmd s.block⟩

theorem valid_after_run (evs : List Event) (s t : State) (hp : s.pending = evs)
    (h : Host.Core.run Sys2Proof.core evs.length s = .next t) :
    t.block.valid = encSinceReset s.block.valid evs := by
  induction evs generalizing s with
  | nil => cases h; rfl
  | cons ev evs ih =>
    obtain ⟨u, hstep, hrun⟩ := core_run_succ_cases h
    obtain ⟨hrest, hvalid⟩ := step_takes_event hp hstep
    rw [ih u hrest hrun, hvalid, ← encSinceReset_cons]

/-- Settles O46, by induction on the queue. -/
theorem validTellsOfEncSinceReset : Obligations.ValidTellsOfEncSinceReset := by
  refine ⟨fun s t h => valid_after_run s.pending s t rfl h, rfl, fun s hv => ?_⟩
  have hans : answer .decr s.block = .ok ⟨.noKeystreamAvailable, [], []⟩ := by
    simp [answer, hv]
  exact exec_of_answer_ok hans

/-! Several instances (10_state.md R26, 60_exceptions.md R113). -/

/-- The scheduled instance takes a step of its own; a number with no instance changes nothing. -/
theorem Instances.step_next_cases {sys sys' : Instances} {j : Nat}
    (h : Instances.step sys j = .next sys') :
    (sys[j]? = none ∧ sys' = sys) ∨
    (∃ s t, sys[j]? = some s ∧ Machine.step s = .next t ∧ sys' = sys.set j t) := by
  unfold Instances.step at h
  split at h
  · cases h; exact .inl ⟨‹_›, rfl⟩
  · split at h <;> cases h
    exact .inr ⟨_, _, ‹_›, ‹_›, rfl⟩

theorem Instances.length_of_step {sys sys' : Instances} {j : Nat}
    (h : Instances.step sys j = .next sys') : sys'.length = sys.length := by
  obtain ⟨-, rfl⟩ | ⟨s, t, -, -, rfl⟩ := step_next_cases h <;> simp

/-- The scheduled instance is where its own step leads. -/
theorem Instances.getElem?_of_step_same {sys sys' : Instances} {k : Nat} {s : State}
    (h : Instances.step sys k = .next sys') (hk : sys[k]? = some s) :
    ∃ t, sys'[k]? = some t ∧ Machine.step s = .next t := by
  obtain ⟨hnone, -⟩ | ⟨s', t, hs', hstep, rfl⟩ := step_next_cases h
  · cases hnone.symm.trans hk
  · cases hs'.symm.trans hk
    obtain ⟨hlt, -⟩ := List.getElem?_eq_some_iff.1 hk
    exact ⟨t, by simp [hlt], hstep⟩

/-- Every other instance is untouched. -/
theorem Instances.getElem?_of_step_other {sys sys' : Instances} {j k : Nat}
    (h : Instances.step sys j = .next sys') (hjk : j ≠ k) : sys'[k]? = sys[k]? := by
  obtain ⟨-, rfl⟩ | ⟨s, t, -, -, rfl⟩ := step_next_cases h
  · rfl
  · exact List.getElem?_set_ne hjk

theorem Instances.run_cons_cases {sched : List Nat} {sys sys' : Instances} {j : Nat}
    (h : Instances.run (j :: sched) sys = .next sys') :
    ∃ mid, Instances.step sys j = .next mid ∧ Instances.run sched mid = .next sys' := by
  unfold Instances.run at h
  split at h
  · exact ⟨_, ‹_›, h⟩
  all_goals cases h

/-- Settles O53, by induction on the schedule. -/
theorem instancesShareNothing : Obligations.InstancesShareNothing := by
  intro sched
  induction sched with
  | nil => intro sys sys' h; cases h; exact ⟨rfl, fun k s hk => ⟨s, hk, rfl⟩⟩
  | cons j sched ih =>
    intro sys sys' h
    obtain ⟨mid, hstep, hrun⟩ := Instances.run_cons_cases h
    obtain ⟨hlen, hown⟩ := ih mid sys' hrun
    refine ⟨hlen.trans (Instances.length_of_step hstep), fun k s hk => ?_⟩
    by_cases hjk : j = k
    · subst hjk
      obtain ⟨t, ht, hst⟩ := Instances.getElem?_of_step_same hstep hk
      rw [List.count_cons_self, core_run_next _ s t hst]
      exact hown j t ht
    · rw [List.count_cons_of_ne hjk]
      exact hown k s ((Instances.getElem?_of_step_other hstep hjk).trans hk)

end Sys2Proof.Machine

/-! PROOFS, the store and the order of commands. What a step does with the command at the head of the
queue, the decoder on canonical commands, and the reads of `DECR` that can fail, each said once; from
them the one fault, the elements of the outputs and of the store, the finite store, and the run of an
issued program. -/

namespace Sys2Proof.Machine

/-! The one fault (20_memory.md R30, R31; log 12). -/

/-- Where the reads of `DECR` fail, they fail on a cell in their range that does not exist. -/
theorem combineStored_error_cases {ks cb : Memory} {n i : Nat} {r : Fault}
    (h : combineStored ks cb n i = .error r) :
    ∃ a, a < i + n ∧ ((r = .storeCellAbsent .ks a ∧ Memory.read ks a = none) ∨
      (r = .storeCellAbsent .cb a ∧ Memory.read cb a = none)) := by
  induction n generalizing i with
  | zero => cases h
  | succ n ih =>
    unfold combineStored at h
    split at h
    · cases h; exact ⟨i, by omega, .inl ⟨rfl, ‹_›⟩⟩
    · split at h
      · cases h; exact ⟨i, by omega, .inr ⟨rfl, ‹_›⟩⟩
      · split at h <;> cases h
        rename_i hrest
        obtain ⟨a, ha, habsent⟩ := ih hrest
        exact ⟨a, by omega, habsent⟩

/-- Settles O29: the fault is one of `DECR`'s reads, which start at index 0. -/
theorem faultOnlyOnAbsentStoreCell : Obligations.FaultOnlyOnAbsentStoreCell := by
  intro i s r h
  obtain ⟨hi, hvalid, hreads⟩ := exec_fault_cases i s r h
  obtain ⟨a, ha, habsent⟩ := combineStored_error_cases hreads
  exact ⟨hi, hvalid, a, by omega, habsent⟩

/-! The elements of the outputs and of the store (20_memory.md R30, R43). -/

/-- Settles O36: both passes answer the XOR of the keystream with their operand, `DECK` the XOR of its
two operands. -/
theorem outputElementFromOwnInput : Obligations.OutputElementFromOwnInput := by
  constructor
  · intro s v x
    refine ⟨_, _, _, _, exec_enc v x s, exec_decs v x s, rfl, rfl, ?_, keystream_length .., ?_⟩
    · simp [xorBytes_length]
    · exact fun i b k hb hk => ⟨hk, xorBytes_getElem? _ _ i k b hk hb⟩
  · intro s x k hlen
    have hexec := exec_deck x k s
    rw [if_pos hlen] at hexec
    refine ⟨_, _, hexec, rfl, ?_, ?_⟩
    · simp [xorBytes_length, hlen]
    · exact fun i b kb hb hk => xorBytes_getElem? _ _ i kb b hk hb

/-- Settles O42: no block but `ENC`'s has another store, and `ENC`'s holds its two sequences. -/
theorem storeBytesAfterEachCommand : Obligations.StoreBytesAfterEachCommand := by
  constructor
  · intro i s t h hne a
    obtain ⟨resp, -, rfl⟩ := exec_next_cases h
    cases i with
    | enc v p => exact absurd rfl (hne v p)
    | _ => exact ⟨rfl, rfl⟩
  · intro v p s
    refine ⟨_, exec_enc v p s, fun a x hx => ?_, fun a ha => ?_⟩
    · obtain ⟨hlt, -⟩ := List.getElem?_eq_some_iff.1 hx
      have hk := List.getElem?_eq_getElem (l := keystream v s.block.f p.length) (i := a) (by simpa)
      exact ⟨_, hk, (Memory.read_ofBytes _ a).trans hk,
        (Memory.read_ofBytes _ a).trans (xorBytes_getElem? _ _ a _ x hk hx)⟩
    · simp [Block.recordSession, Memory.read_ofBytes, xorBytes_length, ha]

/-! A step on a queued command (30_encoding.md R45), and the finite store (20_memory.md R32). -/

theorem stepWith_of_illFormed_none {c : Params} {s : State} {cmd : Command} {rest : List Event}
    (hp : s.pending = .command cmd :: rest) (hw : (decode cmd).illFormed c = none) :
    stepWith c s = exec (decode cmd) { s with pending := rest } := by
  simp [stepWith, State.take, hp, hw]

theorem stepWith_of_illFormed_some {c : Params} {s : State} {cmd : Command} {rest : List Event}
    {why : IllFormed} (hp : s.pending = .command cmd :: rest)
    (hw : (decode cmd).illFormed c = some why) :
    stepWith c s = .refused (.illFormed why) := by
  simp [stepWith, State.take, hp, hw]

/-- Under a finite `STORE_DEPTH` alone, the check of an `ENC` is the comparison with it. -/
theorem illFormed_enc_of_storeDepth {c : Params} {d : Nat} (v : Word) (p : List Byte)
    (hd : c.storeDepth = some d) (hl : c.lenBits = none) :
    (Instr.enc v p).illFormed c = if p.length ≤ d then none else some .storeTooSmall := by
  simp [Instr.illFormed, Params.lengthFits, Params.depthFits, hd, hl]

/-- Settles O11: the step takes the branch of that comparison. -/
theorem finiteStoreRefusesLongerEnc : Obligations.FiniteStoreRefusesLongerEnc := by
  refine ⟨rfl, rfl, fun c d s cmd rest v p hd hl hp hdec => ?_⟩
  have hcheck := illFormed_enc_of_storeDepth v p hd hl
  rw [← hdec] at hcheck ⊢
  refine ⟨fun hlong => ?_, fun hfits => ?_⟩
  · exact stepWith_of_illFormed_some hp (hcheck.trans (if_neg (by omega)))
  · exact stepWith_of_illFormed_none hp (hcheck.trans (if_pos hfits))

/-! The decoder on canonical commands (30_encoding.md R54). -/

/-- A 32-bit operand leaves the opcode of a command word alone. -/
theorem opField_or_arg (m : CmdWord) (a : Word) : opField (m ||| a.setWidth 36) = opField m := by
  apply BitVec.eq_of_getLsbD_eq
  intro i hi
  simp [opField]

theorem argField_matchWord (i : Instr) : argField i.matchWord = 0#32 := by
  cases i <;> (simp only [Instr.matchWord]; decide)

/-- A row's `match` value selects the row's own command. -/
theorem decodeOp_matchWord (i : Instr) : decodeOp (opField i.matchWord) i.arg i.din i.kin = i := by
  cases i <;> (simp only [Instr.matchWord]; rfl)

theorem decode_encode (i : Instr) : decode (encode i) = i := by
  have harg : argField (i.matchWord ||| i.arg.setWidth 36) = i.arg :=
    Laws.argField_or_arg _ _ (argField_matchWord i)
  rw [decode, encode, opField_or_arg, harg]
  exact decodeOp_matchWord i

/-! The run of an issued program (20_memory.md R38, 30_encoding.md R55). -/

theorem execAll_cons_fault {i : Instr} (prog : List Instr) {s : State} {e : Fault}
    (h : exec i s = .fault e) : execAll (i :: prog) s = .fault e := by
  simp only [execAll, h]

/-- The step of an idle instance to which a program was issued executes the program's first command,
with the others still queued. -/
theorem step_issue_cons {s : State} (hs : s.pending = []) (i : Instr) (prog : List Instr) :
    step (s.issue (i :: prog)) = exec i (s.issue prog) := by
  have hp : (s.issue (i :: prog)).pending = .command (encode i) :: (s.issue prog).pending := by
    simp [State.issue, hs]
  have hw : (decode (encode i)).illFormed Config.params = none := by
    simpa [Instr.wellFormed] using wellFormed_default (decode (encode i))
  have hstep := stepWith_of_illFormed_none hp hw
  rwa [decode_encode] at hstep

/-- Settles O47, by induction on the program: a command neither reads nor writes the queue, so it ends
alike with the rest of the program queued and with nothing queued. -/
theorem issuedProgramRunsInOrder : Obligations.IssuedProgramRunsInOrder := by
  intro prog
  induction prog with
  | nil =>
    intro s hs
    have hissue : s.issue [] = s := by simp [State.issue]
    rw [hissue]; rfl
  | cons i prog ih =>
    intro s hs
    have hstep := step_issue_cons hs i prog
    cases ha : answer i s.block with
    | ok resp =>
      have hnext : exec i s = .next (s.finish (blockAfter i s.block) resp) := exec_of_answer_ok ha
      have hqueued : exec i (s.issue prog) =
          .next ((s.finish (blockAfter i s.block) resp).issue prog) :=
        exec_of_answer_ok (s := s.issue prog) ha
      rw [List.length_cons, core_run_next _ _ _ (hstep.trans hqueued),
        execAll_cons_next i prog s _ hnext]
      exact ih _ hs
    | error e =>
      have hfault : exec i (s.issue prog) = .fault e := exec_of_answer_error ha
      rw [execAll_cons_fault prog (exec_of_answer_error ha)]
      exact core_run_fault _ _ e (hstep.trans hfault)

end Sys2Proof.Machine

/-! PROOFS, the encoding. The canonical command of the ports (30_encoding.md R54) is defined once from a
command's fields (`canonicalCommand`) and tied to `encode` and `decode`: `encode_decode` says that encoding
what was decoded gives the canonical command, and with `decode_encode` that two commands decode alike when
their canonical commands are equal. From them the round trip, the opcode map, the unused fields, the step
on a queued word, and the responses. -/

namespace Sys2Proof.Machine

/-! The round trip (R54). -/

/-- Settles O2: decoding reads the row back from the opcode bits and the operand from the `arg` bits. -/
theorem decodeOfEncodeIsIdentity : Obligations.DecodeOfEncodeIsIdentity := decode_encode

/-- A command word from its two fields (R47). -/
def commandWord (op : BitVec 4) (a : Word) : CmdWord := op ++ a

theorem commandWord_getLsbD (op : BitVec 4) (a : Word) (i : Nat) :
    (commandWord op a).getLsbD i = if i < 32 then a.getLsbD i else op.getLsbD (i - 32) :=
  BitVec.getLsbD_append

theorem commandWord_fields (w : CmdWord) : commandWord (opField w) (argField w) = w := by
  apply BitVec.eq_of_getLsbD_eq
  intro i hi
  rw [commandWord_getLsbD]
  split
  · simp [argField, *]
  · have hop : i - 32 < 4 := by omega
    have hback : 32 + (i - 32) = i := by omega
    simp [opField, hop, hback]

theorem commandWord_zero_or_arg (op : BitVec 4) (a : Word) :
    commandWord op 0#32 ||| a.setWidth 36 = commandWord op a := by
  apply BitVec.eq_of_getLsbD_eq
  intro i hi
  rw [BitVec.getLsbD_or, commandWord_getLsbD, commandWord_getLsbD]
  split
  · simp [hi]
  · simp [BitVec.getLsbD_of_ge a i (by omega)]

/-- The command an opcode selects is of the opcode's row. -/
theorem matchWord_decodeOp (op : BitVec 4) (a : Word) (din kin : List Byte) :
    (decodeOp op a din kin).matchWord = commandWord op 0#32 := by
  have hrows : ∀ op : BitVec 4, (decodeOp op 0#32 [] []).matchWord = commandWord op 0#32 := by
    decide
  rw [← hrows op]
  obtain ⟨n, hn⟩ := op
  interval_cases n <;> rfl

/-- The command an opcode selects has the operands the opcode uses, and nothing for the others. -/
theorem operands_decodeOp (op : BitVec 4) (a : Word) (din kin : List Byte) :
    (decodeOp op a din kin).arg = (if usesArg op then a else 0#32) ∧
    (decodeOp op a din kin).din = (if samplesDin op then din else []) ∧
    (decodeOp op a din kin).kin = (if samplesKin op then kin else []) := by
  obtain ⟨n, hn⟩ := op
  interval_cases n <;> exact ⟨rfl, rfl, rfl⟩

/-- A command with what its opcode does not use left out: `arg` is 0 and a port is empty (R52, R54). -/
def canonicalCommand (c : Command) : Command where
  cmd := commandWord (opField c.cmd) (if usesArg (opField c.cmd) then argField c.cmd else 0#32)
  din := if samplesDin (opField c.cmd) then c.din else []
  kin := if samplesKin (opField c.cmd) then c.kin else []

theorem encode_decode (c : Command) : encode (decode c) = canonicalCommand c := by
  obtain ⟨harg, hdin, hkin⟩ := operands_decodeOp (opField c.cmd) (argField c.cmd) c.din c.kin
  rw [encode, decode, matchWord_decodeOp, harg, hdin, hkin, commandWord_zero_or_arg,
    canonicalCommand]

/-- Settles O4: a command that has nothing to leave out is its own canonical command. -/
theorem encodeOfDecodeOnCanonicalCommands : Obligations.EncodeOfDecodeOnCanonicalCommands := by
  intro c harg hdin hkin
  have harg' : (if usesArg (opField c.cmd) then argField c.cmd else 0#32) = argField c.cmd :=
    ite_eq_left_iff.2 fun h => (harg (eq_false_of_ne_true h)).symm
  have hdin' : (if samplesDin (opField c.cmd) then c.din else []) = c.din :=
    ite_eq_left_iff.2 fun h => (hdin (eq_false_of_ne_true h)).symm
  have hkin' : (if samplesKin (opField c.cmd) then c.kin else []) = c.kin :=
    ite_eq_left_iff.2 fun h => (hkin (eq_false_of_ne_true h)).symm
  rw [encode_decode, canonicalCommand, harg', hdin', hkin', commandWord_fields]

/-! The fields a command does not use (R52). -/

/-- `encode` loses nothing, so the canonical command decides what is decoded. -/
theorem decode_eq_of_canonical_eq {c d : Command} (h : canonicalCommand c = canonicalCommand d) :
    decode c = decode d := by
  rw [← decode_encode (decode c), encode_decode, h, ← encode_decode, decode_encode]

/-- Settles O5: what R52 lists is left out of the canonical command. -/
theorem unusedFieldsHaveNoEffect : Obligations.UnusedFieldsHaveNoEffect := by
  intro w w' din din' kin kin'
  refine ⟨fun hop hw => ?_, fun hop => ?_, fun hop => ?_⟩ <;> apply decode_eq_of_canonical_eq
  · have hunused : ∀ op ∈ [3#4, 4#4, 7#4, 8#4], usesArg op = false := by decide
    simp [canonicalCommand, hw, hunused _ hop]
  · have hunsampled : ∀ op ∈ [1#4, 2#4, 3#4, 4#4, 8#4], samplesDin op = false := by decide
    simp [canonicalCommand, hunsampled _ hop]
  · have hunsampled : samplesKin (opField w) = false := by simpa [samplesKin] using hop
    simp [canonicalCommand, hunsampled]

/-! The opcode map (R49). -/

/-- The mask keeps the opcode bits. -/
theorem opField_and_opcodeMask (w : CmdWord) : opField (w &&& opcodeMask) = opField w := by
  have hones : opField opcodeMask = BitVec.allOnes 4 := by decide
  have hand : opField (w &&& opcodeMask) = opField w &&& opField opcodeMask := by
    simp only [opField, BitVec.extractLsb'_and]
  rw [hand, hones, BitVec.and_allOnes]

/-- A word decodes by its masked value `m` alone, with its own `arg` (R49). -/
theorem decode_of_masked {w m : CmdWord} (h : w &&& opcodeMask = m) (din kin : List Byte) :
    decode ⟨w, din, kin⟩ = decodeOp (opField m) (argField w) din kin := by
  rw [← h, opField_and_opcodeMask, decode]

/-- Settles O3: each of the sixteen masked values selects its row, by evaluation of `decodeOp`. -/
theorem opcodeMapSelectsCommand : Obligations.OpcodeMapSelectsCommand := by
  intro w din kin
  and_intros <;> exact fun h => decode_of_masked h din kin

/-! The step on a queued command (R45) and on a placed table word (R47; log 2, log 15). -/

theorem stepWith_of_wellFormed {c : Params} {s : State} {cmd : Command} {rest : List Event}
    (hp : s.pending = .command cmd :: rest) (hw : (decode cmd).wellFormed c = true) :
    stepWith c s = exec (decode cmd) { s with pending := rest } :=
  stepWith_of_illFormed_none hp (by simpa [Instr.wellFormed] using hw)

/-- Settles O6: a well-formed command is not refused, and with the default parameters all are. -/
theorem stepRunsTheIssuedCommand : Obligations.StepRunsTheIssuedCommand :=
  ⟨fun _ _ _ _ => stepWith_of_wellFormed,
    fun _ _ _ hp => stepWith_of_wellFormed hp (wellFormed_default _)⟩

theorem tableCmdWord_of_lt {nbits w : Nat} (hbits : 36 ≤ nbits) (hw : w < 2 ^ 36) :
    tableCmdWord nbits w = .ok (BitVec.ofNat 36 w) := by
  have hfits : w < 2 ^ nbits := hw.trans_le (Nat.pow_le_pow_right (by decide) hbits)
  rw [tableCmdWord, Nat.mod_eq_of_lt hfits, readCmdWord, if_pos hw]

/-- Settles O7: the word is placed at the head of the queue, and the step takes it off again. -/
theorem placedTableWordRunsNext : Obligations.PlacedTableWordRunsNext := by
  intro s nbits w hbits hw
  have hword := tableCmdWord_of_lt hbits hw
  refine ⟨by rw [decodeTableWord, hword], ?_⟩
  rw [State.withFetchWord, hword]
  exact stepRunsTheIssuedCommand.2 _ _ s.pending rfl

/-! Responses (R48, R51, R102). -/

/-- Settles O30: the eight meanings are one `raise`. -/
theorem reservedOpcodesRaiseIllegalCommand : Obligations.ReservedOpcodesRaiseIllegalCommand := by
  intro i s hi
  exact exec_reserved i s (by simpa using hi)

/-- `DECR` reads as many bytes as it is asked for. -/
theorem combineStored_length {ks cb : Memory} {n i : Nat} {out : List Byte}
    (h : combineStored ks cb n i = .ok out) : out.length = n := by
  induction n generalizing i out with
  | zero => cases h; rfl
  | succ n ih =>
    unfold combineStored at h
    split at h
    · cases h
    · split at h
      · cases h
      · split at h <;> cases h
        rename_i hrest
        rw [List.length_cons, ih hrest]

/-- The shape R48 asks of a response: empty on an error, of given lengths on `OK`. -/
def Response.Shaped (resp : Response) (lengths : Nat × Nat) : Prop :=
  (resp.err ≠ .ok → resp.dout = [] ∧ resp.kout = []) ∧
  (resp.err = .ok → (resp.dout.length, resp.kout.length) = lengths)

theorem Response.shaped_of_ok {dout kout : List Byte} {lengths : Nat × Nat}
    (h : (dout.length, kout.length) = lengths) : Response.Shaped ⟨.ok, dout, kout⟩ lengths :=
  ⟨fun hne => absurd rfl hne, fun _ => h⟩

theorem Response.shaped_of_error {e : Err} (he : e ≠ .ok) (lengths : Nat × Nat) :
    Response.Shaped ⟨e, [], []⟩ lengths :=
  ⟨fun _ => ⟨rfl, rfl⟩, fun h => absurd h he⟩

theorem answer_shaped {i : Instr} {b : Block} {resp : Response} (h : answer i b = .ok resp) :
    resp.Shaped (responseLengths b.len i) := by
  cases i with
  | ldf | seed | step | ksb => cases h; exact Response.shaped_of_ok rfl
  | enc v p | decs v p =>
    cases h; exact Response.shaped_of_ok (by simp [responseLengths, xorBytes_length])
  | deck c k =>
    cases h
    split
    · exact Response.shaped_of_ok (by simp [responseLengths, xorBytes_length, *])
    · exact Response.shaped_of_error (by decide) _
  | decr =>
    simp only [answer] at h
    split at h
    · cases hreads : combineStored b.ks b.cb b.len 0 <;> rw [hreads] at h <;> cases h
      exact Response.shaped_of_ok (by simp [responseLengths, combineStored_length hreads])
    · cases h; exact Response.shaped_of_error (by decide) _
  | _ => cases h; exact Response.shaped_of_error (by decide) _

/-- Settles O37: the one response added is the command's `answer`. -/
theorem oneResponseOfTheTabledLengths : Obligations.OneResponseOfTheTabledLengths := by
  refine ⟨fun i s t h => ?_, rfl, rfl, rfl, rfl⟩
  obtain ⟨resp, hans, rfl⟩ := exec_next_cases h
  exact ⟨resp, rfl, answer_shaped hans⟩

/-! Runs that never stop (R45, 60_exceptions.md R103). -/

/-- A store of R17's shape holds the two sequences of its bytes. -/
theorem Block.holds_bytes_of_storeWf {b : Block} (h : b.storeWf) :
    b.Holds (Memory.bytes b.ks) (Memory.bytes b.cb) := by
  obtain ⟨hks, hcb, -⟩ := h
  exact ⟨Memory.eq_ofBytes _ _ hks, Memory.eq_ofBytes _ _ hcb,
    by simpa [Memory.addresses, Memory.bytes] using congrArg List.length hks,
    by simpa [Memory.addresses, Memory.bytes] using congrArg List.length hcb⟩

theorem answer_decr_of_storeWf {b : Block} (hvalid : b.valid = true) (h : b.storeWf) :
    answer .decr b = .ok ⟨.ok, xorBytes (Memory.bytes b.ks) (Memory.bytes b.cb), []⟩ := by
  simp [answer, hvalid, combineStored_holds b _ _ (Block.holds_bytes_of_storeWf h), Except.map]

theorem answer_decr_of_not_valid {b : Block} (hvalid : b.valid = false) :
    answer .decr b = .ok ⟨.noKeystreamAvailable, [], []⟩ := by
  simp [answer, hvalid]

/-- On a store of R17's shape every command ends with a response. -/
theorem exec_next_of_storeWf (i : Instr) (s : State) (h : s.block.storeWf) :
    ∃ t, exec i s = .next t := by
  cases hexec : exec i s with
  | next t => exact ⟨t, rfl⟩
  | refused r => exact absurd hexec (exec_ne_refused i s r)
  | fault e =>
    obtain ⟨rfl, hvalid, -⟩ := exec_fault_cases i s e hexec
    cases (answer_of_exec_fault hexec).symm.trans (answer_decr_of_storeWf hvalid h)

theorem step_next_of_storeWf (s : State) (h : s.block.storeWf) : ∃ t, step s = .next t := by
  cases hp : s.pending with
  | nil => exact ⟨s, by simp [step, stepWith, State.take, hp]⟩
  | cons ev rest =>
    cases ev with
    | reset =>
      exact ⟨State.takeReset Config.params { s with pending := rest },
        by simp [step, stepWith, State.take, hp]⟩
    | command cmd =>
      rw [stepRunsTheIssuedCommand.2 s cmd rest hp]
      exact exec_next_of_storeWf _ _ h

/-- Settles O45, by induction on the number of steps: a step goes on and keeps the invariant. -/
theorem instancesWithInvariantRunForever : Obligations.InstancesWithInvariantRunForever := by
  intro s hs n
  induction n generalizing s with
  | zero => exact ⟨s, rfl⟩
  | succ n ih =>
    obtain ⟨t, hstep⟩ := step_next_of_storeWf s hs.shape
    rw [core_run_next n s t hstep]
    exact ih t (stepKeepsStoreInvariant _ s t hs hstep)

end Sys2Proof.Machine

/-! PROOFS, the pseudo-instructions. What a program whose first command is known leaves, and that a program
run from two states with one block leaves one block and one last response; from them the table of R56. -/

namespace Sys2Proof.Machine

/-! Programs (30_encoding.md R55). -/

@[simp] theorem State.finish_lastResponse (s : State) (b : Block) (resp : Response) :
    (s.finish b resp).lastResponse = some resp := by
  simp [State.lastResponse]

theorem execAll_singleton (i : Instr) (s : State) : execAll [i] s = exec i s := by
  cases hexec : exec i s <;> simp only [execAll, hexec]

/-- `LDF` always ends, with `F` loaded (R67). -/
theorem execAll_ldf_cons (f : Word) (prog : List Instr) (s : State) :
    execAll (.ldf f :: prog) s = execAll prog (s.finish (s.block.loadF f) ⟨.ok, [], []⟩) := rfl

/-- A command reads the block alone, so from two states with one block it ends alike. -/
theorem exec_next_of_block_eq {i : Instr} {s s' t : State} (hb : s'.block = s.block)
    (h : exec i s = .next t) :
    ∃ u, exec i s' = .next u ∧ u.block = t.block ∧ u.lastResponse = t.lastResponse := by
  obtain ⟨resp, hans, rfl⟩ := exec_next_cases h
  exact ⟨_, exec_of_answer_ok (hb ▸ hans), by simp [hb], by simp⟩

theorem execAll_next_of_block_eq {prog : List Instr} {s s' t : State} (hb : s'.block = s.block)
    (hlast : s'.lastResponse = s.lastResponse) (h : execAll prog s = .next t) :
    ∃ u, execAll prog s' = .next u ∧ u.block = t.block ∧ u.lastResponse = t.lastResponse := by
  induction prog generalizing s s' with
  | nil => cases h; exact ⟨s', rfl, hb, hlast⟩
  | cons i prog ih =>
    obtain ⟨m, hi, hprog⟩ := execAll_cons_cases i prog s t h
    obtain ⟨m', hi', hmb, hmlast⟩ := exec_next_of_block_eq hb hi
    rw [execAll_cons_next i prog s' m' hi']
    exact ih hmb hmlast hprog

/-- An `LDF` of what `F` holds may be left out before a command (R56). -/
theorem execAll_without_ldf {i : Instr} {prog : List Instr} {s t : State} {f : Word}
    (h : execAll (.ldf f :: i :: prog) s = .next t) (hf : s.block.f = f) :
    ∃ u, execAll (i :: prog) s = .next u ∧ u.block = t.block ∧
      u.lastResponse = t.lastResponse := by
  have hb : s.block = s.block.loadF f := by rw [← hf]; rfl
  rw [execAll_ldf_cons] at h
  obtain ⟨m, hi, hprog⟩ := execAll_cons_cases _ _ _ _ h
  obtain ⟨m', hi', hmb, hmlast⟩ := exec_next_of_block_eq hb hi
  rw [execAll_cons_next i prog s m' hi']
  exact execAll_next_of_block_eq hmb hmlast hprog

/-! The rows of the table (R56). -/

theorem execAll_encrypt (s : State) (p : List Byte) (v f : Word) : ∃ t,
    execAll (Pseudo.expand (.encrypt p v f)) s = .next t ∧
    t.lastResponse = some ⟨.ok, xorBytes (keystream v f p.length) p, keystream v f p.length⟩ :=
  ⟨_, (execAll_ldf_cons ..).trans ((execAll_singleton ..).trans (exec_enc ..)), by simp⟩

theorem execAll_decryptWithSeed (s : State) (c : List Byte) (v f : Word) : ∃ t,
    execAll (Pseudo.expand (.decryptWithSeed c v f)) s = .next t ∧
    t.lastResponse = some ⟨.ok, xorBytes (keystream v f c.length) c, []⟩ :=
  ⟨_, (execAll_ldf_cons ..).trans ((execAll_singleton ..).trans (exec_decs ..)), by simp⟩

theorem execAll_decrypt (s : State) {resp : Response} (h : answer .decr s.block = .ok resp) : ∃ t,
    execAll (Pseudo.expand .decrypt) s = .next t ∧ t.lastResponse = some resp :=
  ⟨_, (execAll_singleton ..).trans (exec_of_answer_ok h), by simp⟩

/-- Settles O49: the rows are programs of known commands, and `execAll_without_ldf` gives the shorter
sequences. -/
theorem pseudoInstructionResults : Obligations.PseudoInstructionResults := by
  refine ⟨fun s p v f => ?encrypt, fun s c v f => ?withSeed, fun s c k => ?withKeystream,
    fun s hv => execAll_decrypt s (answer_decr_of_not_valid hv),
    fun s hv hwf => execAll_decrypt s (answer_decr_of_storeWf hv hwf),
    fun s v f => ?nextByte, fun s v f => ?stepRegister, fun _ => rfl⟩
  case encrypt =>
    obtain ⟨t, hrun, hlast⟩ := execAll_encrypt s p v f
    refine ⟨t, hrun, hlast, fun hf => ?_⟩
    simpa only [execAll_singleton] using execAll_without_ldf hrun hf
  case withSeed =>
    obtain ⟨t, hrun, hlast⟩ := execAll_decryptWithSeed s c v f
    refine ⟨t, hrun, hrun, hlast, fun hf => ?_⟩
    simpa only [execAll_singleton] using execAll_without_ldf hrun hf
  case withKeystream => exact ⟨_, (execAll_singleton ..).trans (exec_deck c k s), by simp⟩
  case nextByte => exact ⟨_, rfl, by simp, rfl, execAll_without_ldf rfl⟩
  case stepRegister => exact ⟨_, rfl, by simp, rfl, execAll_without_ldf rfl⟩

end Sys2Proof.Machine

/-! PROOFS, the assembler text (30_encoding.md R55; log 17). Reading follows writing in its two layers:
`lexLine` cuts a written text into known parts (a number is one word, a sequence is `seqTokens`), and the
readers of numbers and sequences give back from those parts what was written. -/

namespace Sys2Proof.Machine

/-! Hexadecimal numbers. -/

theorem hexDigit_mod (n : Nat) : hexDigit (n % 16) = hexDigit n := by simp [hexDigit]

theorem hexDigitValue_hexDigit (n : Nat) : hexDigitValue (hexDigit n) = some (n % 16) := by
  have hdigits : ∀ d < 16, hexDigitValue (hexDigit d) = some d := by decide
  rw [← hexDigit_mod, hdigits _ (Nat.mod_lt _ (by decide))]

theorem readDigits_append (n : Nat) (xs ys : List Char) :
    readDigits n (xs ++ ys) = (readDigits n xs).bind fun m => readDigits m ys := by
  induction xs generalizing n with
  | nil => rfl
  | cons c xs ih => cases hc : hexDigitValue c <;> simp [readDigits, hc, ih]

/-- The digits written for a number that fits them are read as that number. -/
theorem readDigits_hexDigits {d n : Nat} (h : n < 16 ^ d) :
    readDigits 0 (hexDigits d n) = some n := by
  induction d generalizing n with
  | zero => rw [Nat.lt_one_iff.1 h]; rfl
  | succ d ih =>
    have hhigh : n / 16 < 16 ^ d := Nat.div_lt_of_lt_mul (by rwa [← Nat.pow_succ'])
    rw [hexDigits, readDigits_append, ih hhigh]
    simp [readDigits, hexDigitValue_hexDigit, Nat.div_add_mod]

/-- A number written with `0x` and at least one digit is read back. -/
theorem readNumber_hexDigits {bits d : Nat} (v : BitVec bits) (h : v.toNat < 16 ^ (d + 1)) :
    readNumber bits ('0' :: 'x' :: hexDigits (d + 1) v.toNat) = some v := by
  have hread := readDigits_hexDigits h
  cases hcs : hexDigits (d + 1) v.toNat with
  | nil => simp [hexDigits] at hcs
  | cons c cs =>
    rw [hcs] at hread
    simp [readNumber, hread, v.isLt]

theorem readNumber_wordText (w : Word) : readNumber 32 (wordText w) = some w :=
  readNumber_hexDigits w (d := 7) w.isLt

theorem readNumber_byteText (b : Byte) : readNumber 8 (byteText b) = some b :=
  readNumber_hexDigits b (d := 1) b.isLt

/-! The parts of a line. -/

/-- The characters that end a word: the space, the punctuation marks, the quotation mark. -/
def lineMarks : List Char := [' ', ',', '[', ']', quoteChar]

/-- A text that `lexLine` reads as part of one word. -/
def OneWord (cs : List Char) : Prop := ∀ c ∈ cs, c ∉ lineMarks

theorem lexLine_oneWord {cs : List Char} (h : OneWord cs) (w rest : List Char) :
    lexLine false w (cs ++ rest) = lexLine false (w ++ cs) rest := by
  induction cs generalizing w with
  | nil => simp
  | cons c cs ih =>
    obtain ⟨hc, hcs⟩ := List.forall_mem_cons.1 h
    simp only [lineMarks, List.mem_cons, List.not_mem_nil, or_false, not_or] at hc
    obtain ⟨hspace, hcomma, hopen, hclose, hquote⟩ := hc
    simp [lexLine, hspace, hcomma, hopen, hclose, hquote, ih hcs]

@[simp] theorem endWord_nil (ts : List Token) : endWord [] ts = ts := rfl

theorem endWord_of_ne_nil {w : List Char} (hw : w ≠ []) (ts : List Token) :
    endWord w ts = .word w :: ts := if_neg hw

theorem lexLine_end (w : List Char) : lexLine false w [] = some (endWord w []) := rfl

theorem lexLine_space (w rest : List Char) :
    lexLine false w (' ' :: rest) = (lexLine false [] rest).map (endWord w) := rfl

theorem lexLine_openBracket (w rest : List Char) : lexLine false w ('[' :: rest) =
    (lexLine false [] rest).map fun ts => endWord w (.openBracket :: ts) := rfl

theorem lexLine_closeBracket (w rest : List Char) : lexLine false w (']' :: rest) =
    (lexLine false [] rest).map fun ts => endWord w (.closeBracket :: ts) := rfl

/-- The separator that is written, a comma and a space, is one comma. -/
theorem lexLine_separator (w rest : List Char) : lexLine false w (',' :: ' ' :: rest) =
    (lexLine false [] rest).map fun ts => endWord w (.comma :: ts) := by
  have hcomma : lexLine false w (',' :: ' ' :: rest) =
      (lexLine false [] (' ' :: rest)).map fun ts => endWord w (.comma :: ts) := rfl
  rw [hcomma, lexLine_space, Option.map_map]
  rfl

/-! The digits of a number are one word. -/

theorem oneWord_hexDigits (d n : Nat) : OneWord (hexDigits d n) := by
  have hdigits : ∀ d < 16, hexDigit d ∉ lineMarks := by decide
  induction d generalizing n with
  | zero => simp [OneWord, hexDigits]
  | succ d ih =>
    have hdigit : hexDigit n ∉ lineMarks :=
      hexDigit_mod n ▸ hdigits _ (Nat.mod_lt _ (by decide))
    simpa [OneWord, hexDigits, or_imp, forall_and, hdigit] using ih (n / 16)

theorem oneWord_number (d n : Nat) : OneWord ('0' :: 'x' :: hexDigits d n) :=
  List.forall_mem_cons.2 ⟨by decide, List.forall_mem_cons.2 ⟨by decide, oneWord_hexDigits d n⟩⟩

theorem oneWord_wordText (w : Word) : OneWord (wordText w) := oneWord_number 8 w.toNat

theorem oneWord_byteText (b : Byte) : OneWord (byteText b) := oneWord_number 2 b.toNat

@[simp] theorem endWord_wordText (w : Word) (ts : List Token) :
    endWord (wordText w) ts = .word (wordText w) :: ts := rfl

@[simp] theorem endWord_byteText (b : Byte) (ts : List Token) :
    endWord (byteText b) ts = .word (byteText b) :: ts := rfl

/-! Sequences. -/

/-- The parts of a written list of bytes, with its closing bracket. -/
def bytesTokens : List Byte → List Token
  | [] => [.closeBracket]
  | [b] => [.word (byteText b), .closeBracket]
  | b :: bs => .word (byteText b) :: .comma :: bytesTokens bs

/-- The parts of a written sequence. -/
def seqTokens (bs : List Byte) : List Token := .openBracket :: bytesTokens bs

theorem lexLine_bytesText (bs : List Byte) (rest : List Char) :
    lexLine false [] (bytesText bs ++ ']' :: rest) =
      (lexLine false [] rest).map (bytesTokens bs ++ ·) := by
  induction bs using bytesText.induct with
  | case1 => exact lexLine_closeBracket [] rest
  | case2 b =>
    simp [bytesText, bytesTokens, lexLine_oneWord (oneWord_byteText b), lexLine_closeBracket]
  | case3 b bs hne ih =>
    simp [bytesText, bytesTokens, lexLine_oneWord (oneWord_byteText b), lexLine_separator, ih,
      Function.comp_def]

theorem lexLine_seqText_append (bs : List Byte) (rest : List Char) :
    lexLine false [] (seqText bs ++ rest) = (lexLine false [] rest).map (seqTokens bs ++ ·) := by
  simp [seqText, seqTokens, lexLine_openBracket, lexLine_bytesText, Function.comp_def]

theorem lexLine_seqText (bs : List Byte) : lexLine false [] (seqText bs) = some (seqTokens bs) := by
  simpa [lexLine_end] using lexLine_seqText_append bs []

theorem readElements_bytesTokens (b : Byte) (bs : List Byte) (ts : List Token) :
    readElements (bytesTokens (b :: bs) ++ ts) = some (b :: bs, ts) := by
  induction bs generalizing b with
  | nil => simp [bytesTokens, readElements, readNumber_byteText]
  | cons c bs ih => simp [bytesTokens, readElements, readNumber_byteText, ih]

theorem readSequence_seqTokens_append (bs : List Byte) (ts : List Token) :
    readSequence (seqTokens bs ++ ts) = some (bs, ts) := by
  cases bs with
  | nil => rfl
  | cons b bs =>
    have hread := readElements_bytesTokens b bs ts
    cases bs <;> exact hread

theorem readSequence_seqTokens (bs : List Byte) : readSequence (seqTokens bs) = some (bs, []) := by
  simpa using readSequence_seqTokens_append bs []

/-! The operands of a line. -/

theorem lexLine_wordText (w : Word) :
    lexLine false [] (wordText w) = some [.word (wordText w)] := by
  simpa [lexLine_end] using lexLine_oneWord (oneWord_wordText w) [] []

theorem lexLine_wordAndSequence (w : Word) (bs : List Byte) :
    lexLine false [] (wordText w ++ ',' :: ' ' :: seqText bs) =
      some (.word (wordText w) :: .comma :: seqTokens bs) := by
  simp [lexLine_oneWord (oneWord_wordText w), lexLine_separator, lexLine_seqText]

theorem lexLine_twoSequences (bs cs : List Byte) :
    lexLine false [] (seqText bs ++ ',' :: ' ' :: seqText cs) =
      some (seqTokens bs ++ .comma :: seqTokens cs) := by
  simp [lexLine_seqText_append, lexLine_separator, lexLine_seqText]

theorem readWordOperand_tokens (w : Word) : readWordOperand [.word (wordText w)] = some w :=
  readNumber_wordText w

theorem readWordAndSequence_tokens (w : Word) (bs : List Byte) :
    readWordAndSequence (.word (wordText w) :: .comma :: seqTokens bs) = some (w, bs) := by
  simp [readWordAndSequence, readNumber_wordText, readSequence_seqTokens]

theorem readTwoSequences_tokens (bs cs : List Byte) :
    readTwoSequences (seqTokens bs ++ .comma :: seqTokens cs) = some (bs, cs) := by
  simp [readTwoSequences, readSequence_seqTokens_append, readSequence_seqTokens]

/-! Lines. -/

/-- The mnemonics that are written with operands. -/
def operandMnemonics : List (List Char) :=
  [['L', 'D', 'F'], ['S', 'E', 'E', 'D'], ['E', 'N', 'C'], ['D', 'E', 'C', 'S'],
    ['D', 'E', 'C', 'K']]

theorem oneWord_of_mem_operandMnemonics : ∀ m ∈ operandMnemonics, OneWord m ∧ m ≠ [] := by
  simp [operandMnemonics, OneWord, lineMarks, quoteChar]

/-- A line that is a mnemonic and operands is read from the parts of its operands. -/
theorem readAsm_mnemonic {m operands : List Char} {ts : List Token} (hm : m ∈ operandMnemonics)
    (hts : lexLine false [] operands = some ts) :
    readAsm (m ++ ' ' :: operands) = readOperands m ts := by
  obtain ⟨hword, hne⟩ := oneWord_of_mem_operandMnemonics m hm
  rw [readAsm, lexLine_oneWord hword, List.nil_append, lexLine_space, hts, Option.map_some,
    endWord_of_ne_nil hne]

theorem readAsm_asmText {i : Instr} {cs : List Char} (h : asmText i = some cs) :
    readAsm cs = some i := by
  cases i with
  | ldf f =>
    cases h
    simpa [readOperands, readWordOperand_tokens] using
      readAsm_mnemonic (m := ['L', 'D', 'F']) (by decide) (lexLine_wordText f)
  | seed v =>
    cases h
    simpa [readOperands, readWordOperand_tokens] using
      readAsm_mnemonic (m := ['S', 'E', 'E', 'D']) (by decide) (lexLine_wordText v)
  | enc v p =>
    cases h
    simpa [readOperands, readWordAndSequence_tokens] using
      readAsm_mnemonic (m := ['E', 'N', 'C']) (by decide) (lexLine_wordAndSequence v p)
  | decs v c =>
    cases h
    simpa [readOperands, readWordAndSequence_tokens] using
      readAsm_mnemonic (m := ['D', 'E', 'C', 'S']) (by decide) (lexLine_wordAndSequence v c)
  | deck c k =>
    cases h
    simpa [readOperands, readTwoSequences_tokens] using
      readAsm_mnemonic (m := ['D', 'E', 'C', 'K']) (by decide) (lexLine_twoSequences c k)
  | step | ksb | decr => cases h; decide
  | _ => cases h

theorem exists_asmText_of_not_reserved {i : Instr} (h : i ∉ reservedInstrs) :
    ∃ cs, asmText i = some cs := by
  cases i with
  | ldf | seed | step | ksb | enc | decs | deck | decr => exact ⟨_, rfl⟩
  | _ => exact absurd (by decide) h

/-- Settles O48: every command that is not reserved has a text, and `readAsm` undoes `asmText`. -/
theorem assemblerTextReadsBack : Obligations.AssemblerTextReadsBack := by
  have hreserved : ∀ i ∈ reservedInstrs, asmText i = none := by decide
  refine fun i => ⟨hreserved i, fun hi => ?_⟩
  obtain ⟨cs, hcs⟩ := exists_asmText_of_not_reserved hi
  exact ⟨cs, hcs, readAsm_asmText hcs⟩

end Sys2Proof.Machine

/-! PROOFS, the generator. A step is said once bit by bit (`stepRegister_getLsbD`); linearity in the seed
and the inverse follow by comparing bits, and linearity passes to the keystream by its recursion. The
keystream is said once by its elements (`keystream_getElem?`) and as a concatenation (`keystream_add`).
From them the statements on the pure functions, and then those on the generator's commands. -/

namespace Sys2Proof.Machine

/-! One step, as a circuit and bit by bit (40_generator.md R60, R61). -/

theorem stepRegister_of_bit_set {s : Word} (h : s.getLsbD 0 = true) (f : Word) :
    stepRegister s f = (s >>> 1) ^^^ f := if_pos h

theorem stepRegister_of_bit_clear {s : Word} (h : s.getLsbD 0 = false) (f : Word) :
    stepRegister s f = s >>> 1 := if_neg (h ▸ Bool.false_ne_true)

theorem stepRegister_eq_shift_xor_mux (s f : Word) :
    stepRegister s f = (s >>> 1) ^^^ (if s.getLsbD 0 then f else 0#32) := by
  rw [stepRegister]
  split <;> simp

/-- Holds at bit 31 too, where `s.getLsbD 32` is the zero that the shift fills in. -/
theorem stepRegister_getLsbD (s f : Word) (i : Nat) :
    (stepRegister s f).getLsbD i = (s.getLsbD (i + 1) ^^ (s.getLsbD 0 && f.getLsbD i)) := by
  rw [stepRegister_eq_shift_xor_mux]
  cases s.getLsbD 0 <;> simp [Nat.add_comm]

theorem stepRegister_getLsbD_top (s f : Word) :
    (stepRegister s f).getLsbD 31 = (s.getLsbD 0 && f.getLsbD 31) := by
  rw [stepRegister_getLsbD, BitVec.getLsbD_of_ge s (31 + 1) le_rfl, Bool.false_xor]

/-- Settles O13: both halves are the circuit, read as a word and bit by bit. -/
theorem stepFunctionBitByBit : Obligations.StepFunctionBitByBit := fun s f =>
  ⟨fun i _ => stepRegister_getLsbD s f i, stepRegister_getLsbD_top s f,
    stepRegister_eq_shift_xor_mux s f⟩

theorem shiftRight_one_eq_append (s : Word) :
    s >>> 1 = (0#1 ++ s.extractLsb' 1 31 : BitVec 32) := by
  apply BitVec.eq_of_getLsbD_eq
  intro i hi
  rw [BitVec.getLsbD_append]
  split
  · simp [*]
  · simp [BitVec.getLsbD_of_ge s (1 + i) (by omega)]

/-- Settles O12: the model's shift is the shift with a zero put in at the top. -/
theorem stepFunctionTwoCases : Obligations.StepFunctionTwoCases := by
  refine ⟨fun s f => ?_, by decide, by decide⟩
  rw [← shiftRight_one_eq_append]
  exact ⟨fun h => stepRegister_of_bit_set h f, fun h => stepRegister_of_bit_clear h f⟩

/-! Linearity in the seed (R71). -/

theorem stepRegister_xor (a b f : Word) :
    stepRegister (a ^^^ b) f = stepRegister a f ^^^ stepRegister b f := by
  apply BitVec.eq_of_getLsbD_eq
  intro i hi
  simp only [stepRegister_getLsbD, BitVec.getLsbD_xor, Bool.and_xor_distrib_right,
    Bool.xor_assoc, Bool.xor_left_comm]

@[simp] theorem stepRegister_zero_seed (f : Word) : stepRegister 0#32 f = 0#32 := by
  simp [stepRegister]

theorem stepTimes_xor (n : Nat) (a b f : Word) :
    stepTimes n (a ^^^ b) f = stepTimes n a f ^^^ stepTimes n b f := by
  induction n generalizing a b with
  | zero => rfl
  | succ n ih => simp only [stepTimes_succ, stepRegister_xor, ih]

theorem lowByte_xor (t u : Word) : lowByte (t ^^^ u) = lowByte t ^^^ lowByte u :=
  BitVec.extractLsb'_xor

theorem ksb_fst_xor (a b f : Word) : (ksb (a ^^^ b) f).1 = (ksb a f).1 ^^^ (ksb b f).1 := by
  simp only [ksb_fst, stepTimes_xor, lowByte_xor]

theorem keystream_xor (a b f : Word) (n : Nat) :
    keystream (a ^^^ b) f n = xorBytes (keystream a f n) (keystream b f n) := by
  induction n generalizing a b with
  | zero => rfl
  | succ n ih =>
    have hsnd : (ksb (a ^^^ b) f).2 = (ksb a f).2 ^^^ (ksb b f).2 := stepTimes_xor 8 a b f
    rw [keystream_succ, keystream_succ, keystream_succ, xorBytes_cons, ksb_fst_xor, hsnd, ih]

/-- Settles O14: the pair `(1, 0)`, `(0, 1)` is one under which a step is not linear in both. -/
theorem keystreamIsLinearInTheSeed : Obligations.KeystreamIsLinearInTheSeed :=
  ⟨stepRegister_xor, stepRegister_zero_seed, ksb_fst_xor, keystream_xor,
    1#32, 0#32, 0#32, 1#32, by decide⟩

/-! The inverse of a step, and the collisions (R72). -/

theorem unstepRegister_getLsbD_zero (x f : Word) :
    (unstepRegister x f).getLsbD 0 = x.getLsbD 31 := by
  cases h : x.getLsbD 31 <;> rw [unstepRegister, h] <;> simp

theorem unstepRegister_getLsbD_succ (x f : Word) {i : Nat} (hi : i < 31) :
    (unstepRegister x f).getLsbD (i + 1) = (x.getLsbD i ^^ (x.getLsbD 31 && f.getLsbD i)) := by
  have hlow : i < 32 := by omega
  have hup : i + 1 < 32 := by omega
  cases h : x.getLsbD 31 <;> rw [unstepRegister, h] <;> simp [hlow, hup]

theorem unstepRegister_stepRegister (s f : Word) (hf : f.getLsbD 31 = true) :
    unstepRegister (stepRegister s f) f = s := by
  have htop : (stepRegister s f).getLsbD 31 = s.getLsbD 0 := by
    rw [stepRegister_getLsbD_top, hf, Bool.and_true]
  apply BitVec.eq_of_getLsbD_eq
  intro i hi
  cases i with
  | zero => rw [unstepRegister_getLsbD_zero, htop]
  | succ i =>
    rw [unstepRegister_getLsbD_succ _ _ (by omega), htop, stepRegister_getLsbD]
    simp

theorem stepRegister_unstepRegister (x f : Word) (hf : f.getLsbD 31 = true) :
    stepRegister (unstepRegister x f) f = x := by
  apply BitVec.eq_of_getLsbD_eq
  intro i hi
  rw [stepRegister_getLsbD, unstepRegister_getLsbD_zero]
  obtain rfl | hi31 : i = 31 ∨ i < 31 := by omega
  · simp [hf]
  · rw [unstepRegister_getLsbD_succ _ _ hi31]
    simp

theorem append_bit_getLsbD_zero (y : BitVec 31) (b : BitVec 1) :
    (y ++ b : BitVec 32).getLsbD 0 = b.getLsbD 0 := by
  rw [BitVec.getLsbD_append, if_pos Nat.one_pos]

theorem append_bit_getLsbD_succ (y : BitVec 31) (b : BitVec 1) (i : Nat) :
    (y ++ b : BitVec 32).getLsbD (i + 1) = y.getLsbD i := by
  rw [BitVec.getLsbD_append, if_neg (by omega), Nat.add_sub_cancel]

theorem append_bit_shiftRight (y : Word) (b : BitVec 1) (hy : y.getLsbD 31 = false) :
    (y.extractLsb' 0 31 ++ b : BitVec 32) >>> 1 = y := by
  apply BitVec.eq_of_getLsbD_eq
  intro i hi
  rw [BitVec.getLsbD_ushiftRight, Nat.add_comm 1 i, append_bit_getLsbD_succ,
    BitVec.getLsbD_extractLsb', Nat.zero_add]
  obtain rfl | hi31 : i = 31 ∨ i < 31 := by omega
  · rw [hy, Bool.and_false]
  · rw [decide_eq_true hi31, Bool.true_and]

/-- A state is its bit 0 under what the shift keeps. -/
theorem eq_of_bit_zero_of_shiftRight {s t : Word} (h0 : s.getLsbD 0 = t.getLsbD 0)
    (hshift : s >>> 1 = t >>> 1) : s = t := by
  apply BitVec.eq_of_getLsbD_eq
  intro i hi
  cases i with
  | zero => exact h0
  | succ i =>
    have hbit := congrArg (fun v => v.getLsbD i) hshift
    simpa only [BitVec.getLsbD_ushiftRight, Nat.add_comm 1 i] using hbit

theorem eq_append_bit_iff (s y : Word) (b : BitVec 1) (hy : y.getLsbD 31 = false) :
    s = (y.extractLsb' 0 31 ++ b : BitVec 32) ↔ s.getLsbD 0 = b.getLsbD 0 ∧ s >>> 1 = y := by
  constructor
  · rintro rfl
    exact ⟨append_bit_getLsbD_zero _ b, append_bit_shiftRight y b hy⟩
  · rintro ⟨h0, hshift⟩
    exact eq_of_bit_zero_of_shiftRight (h0.trans (append_bit_getLsbD_zero _ b).symm)
      (hshift.trans (append_bit_shiftRight y b hy).symm)

theorem stepRegister_eq_iff (s f x : Word) (hf : f.getLsbD 31 = false) (hx : x.getLsbD 31 = false) :
    stepRegister s f = x ↔
      s = (x.extractLsb' 0 31 ++ 0#1 : BitVec 32) ∨
      s = ((x ^^^ f).extractLsb' 0 31 ++ 1#1 : BitVec 32) := by
  have hxf : (x ^^^ f).getLsbD 31 = false := by rw [BitVec.getLsbD_xor, hx, hf, Bool.xor_false]
  have hxor : s >>> 1 ^^^ f = x ↔ s >>> 1 = x ^^^ f :=
    ⟨fun h => by rw [← h, BitVec.xor_assoc, BitVec.xor_self, BitVec.xor_zero],
      fun h => by rw [h, BitVec.xor_assoc, BitVec.xor_self, BitVec.xor_zero]⟩
  rw [eq_append_bit_iff s x _ hx, eq_append_bit_iff s (x ^^^ f) _ hxf]
  cases h : s.getLsbD 0 with
  | false => rw [stepRegister_of_bit_clear h]; simp
  | true => rw [stepRegister_of_bit_set h, hxor]; simp

/-- Settles O15: with `F[31] = 1` bit 31 of the result tells the ejected bit; with `F[31] = 0` either
ejected bit gives one preimage. -/
theorem stepInverseAndCollisions : Obligations.StepInverseAndCollisions :=
  ⟨stepRegister_getLsbD_top,
    fun s f hf => ⟨unstepRegister_stepRegister s f hf, stepRegister_unstepRegister s f hf⟩,
    fun x s f hf hx => stepRegister_eq_iff s f x hf hx, by decide, by decide⟩

/-! The keystream from steps (R64, R68, R69). -/

/-- Settles O17: `ksb` is eight steps and the low byte, by definition. -/
theorem keystreamByteAfterEightSteps : Obligations.KeystreamByteAfterEightSteps :=
  ⟨fun _ _ => rfl, by decide⟩

theorem keystream_getElem? (s f : Word) {n i : Nat} (hi : i < n) :
    (keystream s f n)[i]? = some (lowByte (stepTimes (8 * (i + 1)) s f)) := by
  induction n generalizing s i with
  | zero => omega
  | succ n ih =>
    rw [keystream_succ]
    cases i with
    | zero => rw [List.getElem?_cons_zero, ksb_fst]
    | succ i =>
      rw [List.getElem?_cons_succ, ih _ (by omega), ksb_snd, ← stepTimes_add]
      congr 3
      omega

/-- Settles O18: the elements by induction on the keystream's length, the sixteen bytes by evaluation. -/
theorem keystreamElementsFromSteps : Obligations.KeystreamElementsFromSteps :=
  ⟨fun s f n => ⟨keystream_length s f n, rfl, fun _ hi => keystream_getElem? s f hi⟩,
    fun _ _ => ⟨rfl, rfl⟩, by decide +kernel, by decide +kernel⟩

theorem keystream_add (s f : Word) (m n : Nat) :
    keystream s f (m + n) = keystream s f m ++ keystream (finalState s f m) f n := by
  induction m generalizing s with
  | zero => simp
  | succ m ih =>
    rw [Nat.succ_add, keystream_succ, ih, keystream_succ, finalState_succ, List.cons_append]

theorem keystream_eq_take (s f : Word) {m n : Nat} (h : m ≤ n) :
    keystream s f m = (keystream s f n).take m := by
  obtain ⟨k, rfl⟩ := Nat.exists_eq_add_of_le h
  rw [keystream_add, List.take_left' (keystream_length s f m)]

/-- Settles O19: the longer keystream is the shorter one and what follows it. -/
theorem keystreamPrefixLaw : Obligations.KeystreamPrefixLaw := fun s f m n =>
  ⟨keystream_eq_take s f, keystream_add s f m n⟩

/-! The zero state and the zero constant (R73). -/

@[simp] theorem stepTimes_zero_seed (n : Nat) (f : Word) : stepTimes n 0#32 f = 0#32 := by
  induction n with
  | zero => rfl
  | succ n ih => rw [stepTimes_succ, stepRegister_zero_seed, ih]

theorem ksb_zero_seed (f : Word) : ksb 0#32 f = (0#8, 0#32) := by
  apply Prod.ext
  · rw [ksb_fst, stepTimes_zero_seed]; rfl
  · rw [ksb_snd, stepTimes_zero_seed]

theorem keystream_zero_seed (f : Word) (n : Nat) : keystream 0#32 f n = List.replicate n 0#8 := by
  induction n with
  | zero => rfl
  | succ n ih => rw [keystream_succ, ksb_zero_seed, ih, List.replicate_succ]

theorem stepRegister_zero_constant (s : Word) : stepRegister s 0#32 = s >>> 1 := by
  simp [stepRegister]

theorem stepTimes_zero_constant (n : Nat) (s : Word) : stepTimes n s 0#32 = s >>> n := by
  induction n generalizing s with
  | zero => simp
  | succ n ih =>
    rw [stepTimes_succ, stepRegister_zero_constant, ih, ← BitVec.shiftRight_add, Nat.add_comm]

theorem lowByte_shiftRight (s : Word) (n : Nat) : lowByte (s >>> n) = s.extractLsb' n 8 := by
  apply BitVec.eq_of_getLsbD_eq
  intro i hi
  simp [lowByte]

theorem ksb_zero_constant (s : Word) : ksb s 0#32 = (s.extractLsb' 8 8, s >>> 8) := by
  apply Prod.ext
  · rw [ksb_fst, stepTimes_zero_constant, lowByte_shiftRight]
  · rw [ksb_snd, stepTimes_zero_constant]

theorem keystream_three_zero_constant (s : Word) :
    keystream s 0#32 3 = [s.extractLsb' 8 8, s.extractLsb' 16 8, s.extractLsb' 24 8] := by
  simp only [keystream_succ, keystream_zero, ksb_zero_constant, ← lowByte_shiftRight,
    ← BitVec.shiftRight_add]

/-- Under the zero constant the top byte is shifted out by one more byte of steps. -/
theorem keystream_top_byte_zero_constant (s : Word) (n : Nat) :
    keystream (s >>> 24) 0#32 n = List.replicate n 0#8 := by
  have hout : s >>> 24 >>> 8 = 0#32 := by
    rw [← BitVec.shiftRight_add, BitVec.ushiftRight_eq_zero (by decide)]
  have hbyte : (s >>> 24).extractLsb' 8 8 = 0#8 := by
    rw [← lowByte_shiftRight, hout]; rfl
  cases n with
  | zero => rfl
  | succ n =>
    rw [keystream_succ, ksb_zero_constant, hbyte, hout, keystream_zero_seed, List.replicate_succ]

theorem keystream_zero_constant (s : Word) (n : Nat) : keystream s 0#32 n =
    ([s.extractLsb' 8 8, s.extractLsb' 16 8, s.extractLsb' 24 8] ++ List.replicate n 0#8).take n := by
  have hfinal : finalState s 0#32 3 = s >>> 24 := stepTimes_zero_constant 24 s
  rw [keystream_eq_take s 0#32 (Nat.le_add_left n 3), keystream_add, hfinal,
    keystream_three_zero_constant, keystream_top_byte_zero_constant]

theorem xorBytes_replicate_zero (xs : List Byte) :
    xorBytes (List.replicate xs.length 0#8) xs = xs := by
  induction xs with
  | nil => rfl
  | cons x xs ih =>
    rw [List.length_cons, List.replicate_succ, xorBytes_cons, ih, BitVec.zero_xor]

theorem exec_enc_zero_seed (p : List Byte) (s : State) : exec (.enc 0#32 p) s =
    .next (s.finish (s.block.recordSession 0#32 p) ⟨.ok, p, List.replicate p.length 0#8⟩) := by
  rw [exec_enc, keystream_zero_seed, xorBytes_replicate_zero]

theorem stepRegister_one_seed (f : Word) : stepRegister 1#32 f = f := by
  simp [stepRegister]

/-- Settles O16: the zero state is a fixed point of a step, and the zero constant makes a step a shift. -/
theorem specialSeedsAndConstants : Obligations.SpecialSeedsAndConstants := by
  refine ⟨fun f n => ⟨keystream_zero_seed f n, stepRegister_zero_seed f⟩,
    fun s p => ⟨_, exec_enc_zero_seed p s, rfl⟩,
    fun s => ⟨stepRegister_zero_constant s, ksb_zero_constant s, ?_⟩,
    keystream_zero_constant, stepRegister_one_seed, by decide⟩
  rw [stepTimes_zero_constant, BitVec.ushiftRight_eq_zero (by decide)]

/-! The commands `LDF`, `SEED`, `STEP`, `KSB` (R62, R65 to R67). -/

/-- The canonical word of a command has its row's opcode above its operand (30_encoding.md R54). -/
theorem encode_of_opcode {i : Instr} {op : BitVec 4} (h : opField i.matchWord = op) :
    encode i = ⟨op ++ i.arg, i.din, i.kin⟩ := by
  have hmatch : i.matchWord = commandWord op 0#32 := by
    rw [← h, ← argField_matchWord i, commandWord_fields]
  rw [encode, hmatch, commandWord_zero_or_arg, commandWord]

/-- Settles O20: the word is the opcode of `LDF` above its operand. -/
theorem ldfLoadsFeedback : Obligations.LdfLoadsFeedback :=
  ⟨exec_ldf, fun f => encode_of_opcode (i := .ldf f) (by rw [Instr.matchWord]; decide)⟩

/-- Settles O21: the word is the opcode of `SEED` above its operand. -/
theorem seedLoadsRegister : Obligations.SeedLoadsRegister :=
  ⟨exec_seed, fun v => encode_of_opcode (i := .seed v) (by rw [Instr.matchWord]; decide)⟩

/-- Settles O22: the corner cases are those of the pure step. -/
theorem stepCommandStepsRegister : Obligations.StepCommandStepsRegister :=
  ⟨exec_step, by decide, stepRegister_zero_seed, stepRegister_zero_constant,
    stepRegister_one_seed _⟩

/-- Settles O23: the corner cases are those of the pure `ksb`. -/
theorem ksbDerivesOneByte : Obligations.KsbDerivesOneByte :=
  ⟨exec_ksb, by decide, ksb_zero_seed, fun s => congrArg Prod.fst (ksb_zero_constant s),
    by decide, by decide⟩

/-! Runs of `STEP` and of `KSB` (R70). -/

theorem execAll_replicate_step (n : Nat) (s : State) : ∃ t,
    execAll (List.replicate n .step) s = .next t ∧
    t.block = s.block.loadR (stepTimes n s.block.r s.block.f) := by
  induction n generalizing s with
  | zero => exact ⟨s, rfl, rfl⟩
  | succ n ih =>
    exact ih (s.finish (s.block.loadR (stepRegister s.block.r s.block.f)) ⟨.ok, [], []⟩)

theorem execAll_replicate_ksb (n : Nat) (s : State) : ∃ t,
    execAll (List.replicate n .ksb) s = .next t ∧
    t.block = s.block.loadR (finalState s.block.r s.block.f n) ∧
    t.responses = s.responses ++ (keystream s.block.r s.block.f n).map fun k => ⟨.ok, [], [k]⟩ := by
  induction n generalizing s with
  | zero => exact ⟨s, rfl, rfl, by simp⟩
  | succ n ih =>
    obtain ⟨t, hrun, hblock, hresp⟩ := ih (s.finish (s.block.loadR (ksb s.block.r s.block.f).2)
      ⟨.ok, [], [(ksb s.block.r s.block.f).1]⟩)
    refine ⟨t, hrun, ?_, ?_⟩
    · rw [hblock, finalState_succ]; rfl
    · rw [hresp, keystream_succ]; simp

/-- Settles O24: both runs by induction on their length, the second after the load of the seed. -/
theorem eightStepsEqualOneKsb : Obligations.EightStepsEqualOneKsb := by
  refine ⟨fun s => ?_, fun s v n => ?_⟩
  · obtain ⟨t, hrun, hblock⟩ := execAll_replicate_step 8 s
    refine ⟨t, _, hrun, exec_ksb s, hblock, ?_⟩
    rw [State.rq, hblock]
    rfl
  · exact execAll_replicate_ksb n (s.finish (s.block.loadR v) ⟨.ok, [], []⟩)

end Sys2Proof.Machine

/-! PROOFS, the cipher driver. The commands are functions of the block (`exec_enc`, `exec_decs`, `answer`),
and a program leaves what none of its commands writes (`execAll_agree_of_not_written`), so after an `ENC`
the record and `F` last as R22 says. Each decryption of what an `ENC` answered is said once; the round trip
and the agreement of the strategies join these. -/

namespace Sys2Proof.Machine

/-! What each command does (41_cipher_driver.md R80 to R83). -/

/-- Settles O25: the word is the opcode of `ENC` above its seed. -/
theorem encEncryptsAndRecords : Obligations.EncEncryptsAndRecords :=
  ⟨exec_enc, fun v p => encode_of_opcode (i := .enc v p) (by rw [Instr.matchWord]; decide)⟩

/-- Settles O26: the word is the opcode of `DECS` above its seed. -/
theorem decsDecryptsByReseeding : Obligations.DecsDecryptsByReseeding :=
  ⟨exec_decs, fun v c => encode_of_opcode (i := .decs v c) (by rw [Instr.matchWord]; decide)⟩

theorem exec_deck_of_length_eq {c k : List Byte} (h : k.length = c.length) (s : State) :
    exec (.deck c k) s = .next (s.finish s.block ⟨.ok, xorBytes k c, []⟩) := by
  rw [exec_deck, if_pos h]

theorem exec_deck_of_length_ne {c k : List Byte} (h : k.length ≠ c.length) (s : State) :
    exec (.deck c k) s = .next (s.finish s.block ⟨.lengthMismatch, [], []⟩) := by
  rw [exec_deck, if_neg h]

theorem encode_deck (c k : List Byte) : encode (.deck c k) = ⟨0x700000000#36, c, k⟩ := by
  have hword : 0x7#4 ++ 0#32 = 0x700000000#36 := by decide
  rw [encode_of_opcode (op := 0x7#4) (by rw [Instr.matchWord]; decide), Instr.arg, hword, Instr.din,
    Instr.kin]

/-- Settles O27: the two branches of the length test; the word is the row's own, with `arg = 0`. -/
theorem deckCombinesEqualLengths : Obligations.DeckCombinesEqualLengths :=
  ⟨fun _ _ s => ⟨fun h => exec_deck_of_length_eq h s, fun h => exec_deck_of_length_ne h s⟩,
    encode_deck⟩

/-- Settles O28: without a record `DECR` raises; a store of R17's shape holds two sequences of `LEN`
bytes. -/
theorem decrCombinesTheRecord : Obligations.DecrCombinesTheRecord := by
  refine ⟨fun s => ⟨fun hv => exec_of_answer_ok (answer_decr_of_not_valid hv),
    fun hv hwf => ⟨exec_of_answer_ok (answer_decr_of_storeWf hv hwf), ?_⟩⟩, by decide⟩
  have hholds := Block.holds_bytes_of_storeWf hwf
  rw [xorBytes_length, hholds.ks_len, hholds.cb_len, Nat.min_self]

/-! What a program leaves (10_state.md R22). -/

theorem Element.agree_trans {e : Element} {a b c : Block} (hab : e.agree a b) (hbc : e.agree b c) :
    e.agree a c := by
  cases e <;> exact Eq.trans hab hbc

/-- A program leaves what none of its commands writes. -/
theorem execAll_agree_of_not_written {e : Element} {prog : List Instr} {s t : State}
    (he : ∀ i ∈ prog, e ∉ elementsWritten i) (h : execAll prog s = .next t) :
    e.agree t.block s.block := by
  induction prog generalizing s with
  | nil => cases h; exact e.agree_refl _
  | cons i prog ih =>
    obtain ⟨hi, hprog⟩ := List.forall_mem_cons.1 he
    obtain ⟨u, hexec, hrest⟩ := execAll_cons_cases i prog s t h
    exact Element.agree_trans (ih hprog hrest) ((accessTableWrites i s u hexec).2 e hi)

/-- Only `ENC` writes what `DECR` reads. -/
theorem not_written_of_read_by_decr {i : Instr} {e : Element} (hi : ∀ v p, i ≠ .enc v p)
    (he : e ∈ elementsRead .decr) : e ∉ elementsWritten i := by
  cases i with
  | enc v p => exact absurd rfl (hi v p)
  | ldf | seed | step | ksb | decs => cases e <;> simp [elementsRead, elementsWritten] at he ⊢
  | _ => exact List.not_mem_nil

/-- Only `LDF` writes `F`. -/
theorem feedback_not_written {i : Instr} (hi : ∀ f, i ≠ .ldf f) : Element.f ∉ elementsWritten i := by
  cases i with
  | ldf f => exact absurd rfl (hi f)
  | _ => simp [elementsWritten]

/-- Nothing but an `ENC` changes what `DECR` will answer. -/
theorem answer_decr_after_execAll {prog : List Instr} {s t : State}
    (hprog : ∀ v p, Instr.enc v p ∉ prog) (h : execAll prog s = .next t) :
    answer .decr t.block = answer .decr s.block :=
  answer_eq_of_read_agree _ _ _ fun _ he => execAll_agree_of_not_written
    (fun _ hi => not_written_of_read_by_decr (fun v p heq => hprog v p (heq ▸ hi)) he) h

theorem feedback_after_execAll {prog : List Instr} {s t : State}
    (hprog : ∀ f, Instr.ldf f ∉ prog) (h : execAll prog s = .next t) :
    t.block.f = s.block.f :=
  execAll_agree_of_not_written (e := .f)
    (fun _ hi => feedback_not_written fun f heq => hprog f (heq ▸ hi)) h

/-- From a state that meets the invariant every program runs to its end. -/
theorem execAll_next_of_inv (prog : List Instr) {s : State} (hs : s.Inv) :
    ∃ t, execAll prog s = .next t := by
  induction prog generalizing s with
  | nil => exact ⟨s, rfl⟩
  | cons i prog ih =>
    obtain ⟨u, hexec⟩ := exec_next_of_storeWf i s hs.shape
    rw [execAll_cons_next i prog s u hexec]
    exact ih (exec_keeps_inv hs hexec)

/-! Decrypting what an `ENC` answered (41_cipher_driver.md R84, R87). -/

/-- `ENC` always ends, with its session recorded (R80). -/
theorem exec_enc_next (v : Word) (p : List Byte) (s : State) : ∃ t,
    exec (.enc v p) s = .next t ∧ t.block = s.block.recordSession v p ∧
    t.responses = s.responses ++
      [⟨.ok, xorBytes (keystream v s.block.f p.length) p, keystream v s.block.f p.length⟩] :=
  ⟨_, exec_enc v p s, rfl, rfl⟩

theorem xorBytes_keystream_length (v f : Word) (p : List Byte) :
    (xorBytes (keystream v f p.length) p).length = p.length := by
  simp [xorBytes_length]

theorem xorBytes_keystream_twice (v f : Word) (p : List Byte) :
    xorBytes (keystream v f p.length) (xorBytes (keystream v f p.length) p) = p :=
  xorBytes_self_inverse _ _ (keystream_length v f p.length)

theorem exec_decs_ciphertext {f : Word} {s : State} (hf : s.block.f = f) (v : Word)
    (p : List Byte) : exec (.decs v (xorBytes (keystream v f p.length) p)) s =
      .next (s.finish (s.block.loadR (finalState v f p.length)) ⟨.ok, p, []⟩) := by
  rw [exec_decs, hf, xorBytes_keystream_length, xorBytes_keystream_twice]

theorem exec_deck_ciphertext (v f : Word) (p : List Byte) (s : State) :
    exec (.deck (xorBytes (keystream v f p.length) p) (keystream v f p.length)) s =
      .next (s.finish s.block ⟨.ok, p, []⟩) := by
  have hlen : (keystream v f p.length).length = (xorBytes (keystream v f p.length) p).length := by
    rw [keystream_length, xorBytes_keystream_length]
  rw [exec_deck_of_length_eq hlen, xorBytes_keystream_twice]

theorem answer_decr_recordSession (b : Block) (v : Word) (p : List Byte) :
    answer .decr (b.recordSession v p) = .ok ⟨.ok, p, []⟩ := by
  have hinv : State.Inv ⟨b.recordSession v p, [], []⟩ := State.inv_of_recordSession rfl
  rw [answer_decr_of_storeWf rfl hinv.shape]
  simp only [Block.recordSession, Memory.bytes_ofBytes, xorBytes_keystream_twice]

/-- What `DECR` answers after an `ENC` and any commands that are no `ENC`. -/
theorem exec_decr_after_recordSession {b : Block} {v : Word} {p : List Byte} {prog : List Instr}
    {t u : State} (ht : t.block = b.recordSession v p) (hprog : ∀ w q, Instr.enc w q ∉ prog)
    (h : execAll prog t = .next u) :
    exec .decr u = .next (u.finish u.block ⟨.ok, p, []⟩) := by
  have hans := answer_decr_after_execAll hprog h
  rw [ht, answer_decr_recordSession] at hans
  exact exec_of_answer_ok hans

/-- Settles O31: the three decryptions of what `ENC` answers. -/
theorem roundTripByAllStrategies : Obligations.RoundTripByAllStrategies := by
  intro s v p
  obtain ⟨t, henc, hblock, hresp⟩ := exec_enc_next v p s
  refine ⟨t, _, _, henc, hresp, fun u hf => ?seed, fun u => ?keystream,
    fun prog u hprog hrun => ?record⟩
  case seed => exact ⟨_, exec_decs_ciphertext hf v p, rfl⟩
  case keystream => exact ⟨_, exec_deck_ciphertext v s.block.f p u, rfl⟩
  case record => exact ⟨_, exec_decr_after_recordSession hblock hprog hrun, rfl⟩

/-- Settles O32: the program runs by the invariant, and leaves the record and `F`. -/
theorem decryptStrategiesAgree : Obligations.DecryptStrategiesAgree := by
  intro s v p
  obtain ⟨t, henc, hblock, hresp⟩ := exec_enc_next v p s
  refine ⟨t, _, _, henc, hresp, fun prog hnoEnc hnoLdf => ?_⟩
  obtain ⟨u, hrun⟩ := execAll_next_of_inv prog (State.inv_of_recordSession hblock)
  have hf : u.block.f = s.block.f := by
    rw [feedback_after_execAll hnoLdf hrun, hblock, Block.recordSession]
  exact ⟨u, hrun, exec_decs_ciphertext hf v p, exec_deck_ciphertext v s.block.f p u,
    exec_decr_after_recordSession hblock hnoEnc hrun⟩

/-! What an `ENC` depends on (R88, R90, R91). -/

/-- The session an `ENC` records depends on the block in `F` only. -/
theorem Block.recordSession_eq_of_f_eq {b b' : Block} (hf : b.f = b'.f) (v : Word)
    (p : List Byte) : b.recordSession v p = b'.recordSession v p := by
  rw [Block.recordSession, Block.recordSession, hf]

/-- Settles O33: the response and the recorded session are functions of the operands and `F`. -/
theorem encDependsOnOperandsAndFeedbackOnly : Obligations.EncDependsOnOperandsAndFeedbackOnly := by
  intro s s' v p hf
  refine ⟨_, _, _, exec_enc v p s, exec_enc v p s', ?_, rfl, ?_⟩
  · exact Block.recordSession_eq_of_f_eq hf v p
  · rw [hf]; rfl

/-- Settles O34: both passes answer the XOR with one keystream and leave `R` after it. -/
theorem encAndDecsAreOneFunction : Obligations.EncAndDecsAreOneFunction := by
  intro s v x
  refine ⟨_, _, _, _, exec_enc v x s, exec_decs v x s, rfl, rfl, rfl,
    xorBytes_keystream_length .., fun i b hb => ?_⟩
  obtain ⟨hi, -⟩ := List.getElem?_eq_some_iff.1 hb
  have hk := keystream_getElem? v s.block.f hi
  refine ⟨_, hk, ?_⟩
  rw [BitVec.xor_comm]
  exact xorBytes_getElem? _ _ i _ b hk hb

/-- Two seeds that one step brings together have one state after every later step. -/
theorem stepTimes_succ_eq_of_step_eq {a b f : Word} (h : stepRegister a f = stepRegister b f)
    (n : Nat) : stepTimes (n + 1) a f = stepTimes (n + 1) b f := by
  rw [stepTimes_succ, h, stepTimes_succ]

/-- Two seeds that one step brings together have one keystream, which starts eight steps later. -/
theorem keystream_eq_of_step_eq {a b f : Word} (h : stepRegister a f = stepRegister b f)
    (n : Nat) : keystream a f n = keystream b f n := by
  have hksb : ksb a f = ksb b f := by
    apply Prod.ext
    · rw [ksb_fst, ksb_fst, stepTimes_succ_eq_of_step_eq h 7]
    · exact stepTimes_succ_eq_of_step_eq h 7
  cases n with
  | zero => rfl
  | succ n => rw [keystream_succ, hksb, keystream_succ]

/-- Settles O35: the two bytes by evaluation; the two seeds of one ciphertext are R72's pair, which one
step brings together. -/
theorem sensitivityIsNotALaw : Obligations.SensitivityIsNotALaw := by
  intro s hf
  constructor
  · refine ⟨_, _, exec_enc _ _ s, exec_enc _ _ s, ?_, ?_⟩ <;> rw [hf] <;> rfl
  · intro p
    have hstep : stepRegister 0x478e29a4#32 s.block.f = stepRegister 0xb84e3c63#32 s.block.f := by
      rw [hf]; decide
    obtain ⟨t, henc, -, hresp⟩ := exec_enc_next 0x478e29a4#32 p s
    obtain ⟨u, henc', -, hresp'⟩ := exec_enc_next 0xb84e3c63#32 p s
    rw [keystream_eq_of_step_eq hstep] at hresp
    exact ⟨t, u, _, _, _, henc, henc', hresp, hresp'⟩

end Sys2Proof.Machine

/-! PROOFS, the errors. The error a command raises is a function of the command and of `VALID`
(`raisedError`, 60_exceptions.md R101), tied to `exec` through `answer`; from it the cause of each error
and the unchanged state of a command that raises. With them the step of an idle instance. -/

namespace Sys2Proof.Machine

/-! Which command raises which error (R100, R101). -/

/-- The `err` of the response of a command that ends. -/
def raisedError : Instr → Block → Err
  | .ldf _, _ | .seed _, _ | .step, _ | .ksb, _ | .enc _ _, _ | .decs _ _, _ => .ok
  | .deck c k, _ => if k.length = c.length then .ok else .lengthMismatch
  | .decr, b => if b.valid then .ok else .noKeystreamAvailable
  | .reserved0, _ | .reserved9, _ | .reservedA, _ | .reservedB, _ => .illegalCommand
  | .reservedC, _ | .reservedD, _ | .reservedE, _ | .reservedF, _ => .illegalCommand

theorem answer_err {i : Instr} {b : Block} {resp : Response} (h : answer i b = .ok resp) :
    resp.err = raisedError i b := by
  cases i with
  | deck c k => cases h; exact apply_ite Response.err ..
  | decr =>
    simp only [answer] at h
    split at h
    next hvalid =>
      cases hreads : combineStored b.ks b.cb b.len 0 <;> rw [hreads] at h <;> cases h
      simp [raisedError, hvalid]
    next hvalid => cases h; simp [raisedError, hvalid]
  | _ => cases h; rfl

theorem raisedError_eq_lengthMismatch_iff (i : Instr) (b : Block) :
    raisedError i b = .lengthMismatch ↔ ∃ c k, i = .deck c k ∧ k.length ≠ c.length := by
  cases i with
  | deck c k => simp [raisedError]
  | decr => cases hvalid : b.valid <;> simp [raisedError, hvalid]
  | _ => simp [raisedError]

theorem raisedError_eq_noKeystreamAvailable_iff (i : Instr) (b : Block) :
    raisedError i b = .noKeystreamAvailable ↔ i = .decr ∧ b.valid = false := by
  cases i with
  | deck c k => by_cases hlen : k.length = c.length <;> simp [raisedError, hlen]
  | decr => simp [raisedError]
  | _ => simp [raisedError]

theorem raisedError_eq_illegalCommand_iff (i : Instr) (b : Block) :
    raisedError i b = .illegalCommand ↔ i ∈ reservedInstrs := by
  cases i with
  | deck c k => by_cases hlen : k.length = c.length <;> simp [raisedError, reservedInstrs, hlen]
  | decr => cases hvalid : b.valid <;> simp [raisedError, reservedInstrs, hvalid]
  | _ => simp [raisedError, reservedInstrs]

/-- The response added to the host's is the command's `answer`. -/
theorem answer_of_exec_next {i : Instr} {s t : State} {resp : Response} (h : exec i s = .next t)
    (hresp : t.responses = s.responses ++ [resp]) :
    answer i s.block = .ok resp ∧ t = s.finish (blockAfter i s.block) resp := by
  obtain ⟨resp', hans, rfl⟩ := exec_next_cases h
  obtain rfl : resp' = resp := List.singleton_inj.1 (List.append_cancel_left hresp)
  exact ⟨hans, rfl⟩

/-- Settles O38: the error of the response is `raisedError`, whose three causes exclude one another. -/
theorem eachErrorHasItsOneCause : Obligations.EachErrorHasItsOneCause := by
  refine ⟨fun i s t resp h hresp => ?_, rfl, rfl, rfl, rfl⟩
  rw [answer_err (answer_of_exec_next h hresp).1]
  exact ⟨raisedError_eq_lengthMismatch_iff i s.block,
    raisedError_eq_noKeystreamAvailable_iff i s.block,
    raisedError_eq_illegalCommand_iff i s.block⟩

/-! What a command that raises leaves (R103 to R105). -/

/-- `DECK`, `DECR` and the reserved opcodes, the only commands that raise, write no element (R104). -/
theorem blockAfter_of_raises {i : Instr} {b : Block} (h : raisedError i b ≠ .ok) :
    blockAfter i b = b := by
  cases i with
  | ldf | seed | step | ksb | enc | decs => exact absurd rfl h
  | _ => rfl

theorem answer_empty_of_raises {i : Instr} {b : Block} {resp : Response} (h : answer i b = .ok resp)
    (herr : resp.err ≠ .ok) : resp = ⟨resp.err, [], []⟩ := by
  obtain ⟨err, dout, kout⟩ := resp
  obtain ⟨rfl, rfl⟩ : dout = [] ∧ kout = [] := (answer_shaped h).1 herr
  rfl

/-- A command that raises only adds its response to the host's. -/
theorem exec_eq_finish_of_raises {i : Instr} {s : State} {resp : Response}
    (h : answer i s.block = .ok resp) (herr : resp.err ≠ .ok) :
    exec i s = .next (s.finish s.block resp) := by
  rw [exec_of_answer_ok h, blockAfter_of_raises (answer_err h ▸ herr)]

/-- Settles O39: the command finds the block it found before, and so answers the same again. -/
theorem raisingCommandsChangeNoState : Obligations.RaisingCommandsChangeNoState := by
  intro i s t resp h hresp herr
  have hans := (answer_of_exec_next h hresp).1
  obtain rfl : s.finish s.block resp = t :=
    Host.Outcome.next.inj ((exec_eq_finish_of_raises hans herr).symm.trans h)
  refine ⟨?_, _, exec_eq_finish_of_raises (s := s.finish s.block resp) hans herr, rfl⟩
  rw [← answer_empty_of_raises hans herr, State.finish]

/-! The idle instance (R108, R112; log 3). -/

theorem stepWith_of_pending_nil (c : Params) {s : State} (hp : s.pending = []) :
    stepWith c s = .next s := by
  simp [stepWith, State.take, hp]

/-- Settles O10: with an empty queue nothing arrives. -/
theorem idleInstanceHoldsItsState : Obligations.IdleInstanceHoldsItsState :=
  fun c _ => stepWith_of_pending_nil c

end Sys2Proof.Machine

/-! PROOFS, reset and hazards (70_reset_and_hazards.md). Each hazard is a program with one command in its
middle, so what such a program does comes from its parts: `execAll_append_cases` takes a run that ended
apart, `execAll_append_ldf` puts one with an `LDF` in the middle together. The parts are the runs of `STEP`
and `KSB` and the session an `ENC` records, whose laws stand above. -/

namespace Sys2Proof.Machine

/-! The reset event (R120). -/

theorem stepWith_of_pending_reset (c : Params) {s : State} {rest : List Event}
    (hp : s.pending = .reset :: rest) :
    stepWith c s = .next (State.takeReset c { s with pending := rest }) := by
  simp [stepWith, State.take, hp]

/-- Settles O8: the step takes the reset off the queue, and the block becomes the reset block. -/
theorem resetEventSetsEveryElement : Obligations.ResetEventSetsEveryElement :=
  fun c _ _ hp => stepWith_of_pending_reset c hp

/-! A program with one command in its middle. -/

/-- A program that ran to its end ran its first part to its end, and its second part from there. -/
theorem execAll_append_cases {a b : List Instr} {s t : State} (h : execAll (a ++ b) s = .next t) :
    ∃ u, execAll a s = .next u ∧ execAll b u = .next t := by
  induction a generalizing s with
  | nil => exact ⟨s, rfl, h⟩
  | cons i a ih =>
    obtain ⟨m, hi, hm⟩ := execAll_cons_cases i (a ++ b) s t h
    rw [execAll_cons_next i a s m hi]
    exact ih hm

/-- The second part starts where the first ended, with `F` loaded. -/
theorem execAll_append_ldf {a : List Instr} {s u : State} (h : execAll a s = .next u) (g : Word)
    (b : List Instr) :
    execAll (a ++ .ldf g :: b) s = execAll b (u.finish (u.block.loadF g) ⟨.ok, [], []⟩) := by
  rw [execAll_append_next a _ s u h, execAll_ldf_cons]

/-! The record of the latest `ENC` (R127). -/

/-- Settles O52: the `ENC` records its session whatever the state before it, and what follows leaves the
record. -/
theorem decrAnswersLatestEnc : Obligations.DecrAnswersLatestEnc := by
  intro s t before after v p hafter hrun
  obtain ⟨u, -, hrest⟩ := execAll_append_cases hrun
  obtain ⟨m, henc, hblock, -⟩ := exec_enc_next v p u
  rw [execAll_cons_next _ after u m henc] at hrest
  exact exec_decr_after_recordSession hblock hafter hrest

/-! `KSB` after `ENC` (R126). -/

/-- What a keystream goes on with after its first `m` bytes. -/
theorem keystream_drop (s f : Word) (m n : Nat) :
    (keystream s f (m + n)).drop m = keystream (finalState s f m) f n := by
  rw [keystream_add, List.drop_left' (keystream_length s f m)]

/-- Settles O51: the `ENC` leaves `R` at the final state of its keystream (D13). -/
theorem ksbAfterEncContinuesKeystream : Obligations.KsbAfterEncContinuesKeystream := by
  intro s v p n
  obtain ⟨t, henc, hblock, -⟩ := exec_enc_next v p s
  obtain ⟨u, hrun, -, hresp⟩ := execAll_replicate_ksb n t
  refine ⟨t, u, henc, hrun, ?_⟩
  rw [hresp, hblock, keystream_drop]
  rfl

/-! `LDF` inside a session (R125). -/

theorem execAll_steps_ldf_steps (s : State) (g : Word) (m n : Nat) : ∃ t,
    execAll (List.replicate m .step ++ .ldf g :: List.replicate n .step) s = .next t ∧
    t.block = (s.block.loadF g).loadR (stepTimes n (stepTimes m s.block.r s.block.f) g) := by
  obtain ⟨u, hfirst, hu⟩ := execAll_replicate_step m s
  obtain ⟨t, hsecond, ht⟩ :=
    execAll_replicate_step n (u.finish (u.block.loadF g) ⟨.ok, [], []⟩)
  refine ⟨t, (execAll_append_ldf hfirst g _).trans hsecond, ?_⟩
  rw [ht, State.finish_block, hu]
  rfl

theorem execAll_ksbs_ldf_ksbs (s : State) (g : Word) (m n : Nat) : ∃ t,
    execAll (List.replicate m .ksb ++ .ldf g :: List.replicate n .ksb) s = .next t ∧
    t.block = (s.block.loadF g).loadR (finalState (finalState s.block.r s.block.f m) g n) ∧
    t.responses = s.responses ++ (keystream s.block.r s.block.f m).map (fun k => ⟨.ok, [], [k]⟩) ++
      [⟨.ok, [], []⟩] ++
      (keystream (finalState s.block.r s.block.f m) g n).map fun k => ⟨.ok, [], [k]⟩ := by
  obtain ⟨u, hfirst, hu, huresp⟩ := execAll_replicate_ksb m s
  obtain ⟨t, hsecond, ht, htresp⟩ :=
    execAll_replicate_ksb n (u.finish (u.block.loadF g) ⟨.ok, [], []⟩)
  refine ⟨t, (execAll_append_ldf hfirst g _).trans hsecond, ?_, ?_⟩
  · rw [ht, State.finish_block, hu]
    rfl
  · rw [htresp, State.finish_block, State.finish_responses, hu, huresp]
    rfl

theorem execAll_ldf_enc (s : State) (v g : Word) (p : List Byte) : ∃ t,
    execAll [.ldf g, .enc v p] s = .next t ∧
    t.block = (s.block.loadF g).recordSession v p ∧
    t.responses = s.responses ++
      [⟨.ok, [], []⟩, ⟨.ok, xorBytes (keystream v g p.length) p, keystream v g p.length⟩] :=
  ⟨_, (execAll_ldf_cons ..).trans ((execAll_singleton ..).trans (exec_enc ..)), rfl, by simp⟩

theorem execAll_ldf_decs (s : State) (v g : Word) (c : List Byte) : ∃ t,
    execAll [.ldf g, .decs v c] s = .next t ∧
    t.block = (s.block.loadF g).loadR (finalState v g c.length) ∧
    t.responses = s.responses ++
      [⟨.ok, [], []⟩, ⟨.ok, xorBytes (keystream v g c.length) c, []⟩] :=
  ⟨_, (execAll_ldf_cons ..).trans ((execAll_singleton ..).trans (exec_decs ..)), rfl, by simp⟩

/-- `DECS` of what an `ENC` answered under any constant uses the one that `F` holds now. -/
theorem exec_decs_under_current_feedback (v f : Word) (p : List Byte) (s : State) :
    exec (.decs v (xorBytes (keystream v f p.length) p)) s =
      .next (s.finish (s.block.loadR (finalState v s.block.f p.length))
        ⟨.ok, xorBytes (keystream v s.block.f p.length) (xorBytes (keystream v f p.length) p), []⟩) := by
  rw [exec_decs, xorBytes_keystream_length]

/-- Settles O50: `F` lasts after its `LDF`, and each program goes on from its `LDF` under the new constant;
of the three decryptions `DECS` alone reads `F`. The spec's own case is by evaluation. -/
theorem ldfInsideSessionIsObeyed : Obligations.LdfInsideSessionIsObeyed := by
  refine ⟨fun s t g prog hprog hrun => ?lasts, execAll_steps_ldf_steps, execAll_ksbs_ldf_ksbs,
    execAll_ldf_enc, execAll_ldf_decs, fun s v g p => ?decryptions, by decide, by decide⟩
  case lasts =>
    rw [execAll_ldf_cons] at hrun
    exact feedback_after_execAll hprog hrun
  case decryptions =>
    obtain ⟨m, henc, hblock, hresp⟩ := exec_enc_next v p s
    have hldf : execAll [.ldf g] m = .next (m.finish (m.block.loadF g) ⟨.ok, [], []⟩) :=
      execAll_ldf_cons g [] m
    refine ⟨_, xorBytes (keystream v s.block.f p.length) p, keystream v s.block.f p.length,
      (execAll_cons_next _ _ s m henc).trans hldf, ?_, rfl,
      ⟨_, exec_decs_under_current_feedback .., rfl⟩, ⟨_, exec_deck_ciphertext .., rfl⟩,
      ⟨_, exec_decr_after_recordSession hblock (by simp) hldf, rfl⟩⟩
    simp [hresp]

end Sys2Proof.Machine

/-! PROOFS, the written-out words (95_test_vectors.md 2.8 and part 3). Each is an opcode digit before the
eight digits of its `arg`, so `decode_commandWord`, the decoder on a word put together from its two fields
(R47), reads all of them. -/

namespace Sys2Proof.Machine

@[simp] theorem opField_commandWord (op : BitVec 4) (a : Word) : opField (commandWord op a) = op :=
  BitVec.extractLsb'_append_eq_left

@[simp] theorem argField_commandWord (op : BitVec 4) (a : Word) : argField (commandWord op a) = a :=
  BitVec.extractLsb'_append_eq_right

theorem decode_commandWord (op : BitVec 4) (a : Word) (din kin : List Byte) :
    decode ⟨commandWord op a, din, kin⟩ = decodeOp op a din kin := by
  rw [decode, opField_commandWord, argField_commandWord]

/-- Settles O1: each word is cut after its first digit, the opcode, and `decodeOp` is evaluated there. -/
theorem writtenOutWordsDecode : Obligations.WrittenOutWordsDecode := fun din kin =>
  ⟨decode_commandWord 0x1#4 0x7fe00ae3#32 din kin,
    decode_commandWord 0x2#4 0x478e29a4#32 din kin,
    decode_commandWord 0x3#4 0xffffffff#32 din kin,
    decode_commandWord 0x4#4 0x00000000#32 din kin,
    decode_commandWord 0x5#4 0xdeadbeef#32 din kin,
    decode_commandWord 0x6#4 0x478e29a4#32 din kin,
    decode_commandWord 0x7#4 0x00000000#32 din kin,
    decode_commandWord 0x8#4 0x00000000#32 din kin,
    decode_commandWord 0x0#4 0x00000000#32 din kin,
    decode_commandWord 0x9#4 0x00000000#32 din kin,
    decode_commandWord 0xf#4 0x12345678#32 din kin⟩

end Sys2Proof.Machine
